-- ==== Sys2Proof/Word.lean ====
section
/-! DEFINITION. The machine's one data width: a byte (00_scope.md R5, R6). -/

namespace Sys2Proof

/-- XLEN = MEMW = PCW = 8 (00_scope.md R5): registers, memory slots, addresses, immediates and `pc` are all bytes. -/
abbrev Byte := BitVec 8

/-- A register index, 0 to 7 (10_state.md R10). A register FIELD of an instruction is a whole byte and may hold more;
`Machine.withRegA` and `Machine.withRegB` check it. -/
abbrev RegIdx := Fin 8

end Sys2Proof
end

