-- ==== Sys2Proof/Config.lean ====
section
/-! DEFINITION. The parameters of 00_scope.md R5 that are neither widths nor parts of the launch state. -/

namespace Sys2Proof

/-- UNKNOWN_OPCODE_POLICY (00_scope.md R5, decision D4): what a step does on a byte that is no opcode. -/
inductive UnknownOpcodePolicy where
  /-- R151, the default: the step raises `Fault(IllegalOpcode)`. -/
  | fault
  /-- R152: the step changes no state, emits one diagnostic and stays at the same `pc`. -/
  | spin
deriving DecidableEq, Repr

/-- SP_INDEX (R5, R13): the register used as the stack pointer. -/
def Config.spIndex : RegIdx := 7

/-- SP_RESET (R5, R29). -/
def Config.spReset : Byte := 0xF4#8

/-- PC_RESET (R5, R28). -/
def Config.pcReset : Byte := 0x00#8

/-- MEMSIZE (R5): the number of memory slots. -/
def Config.memSize : Nat := 256

end Sys2Proof
end

