-- ==== Sys2Proof/Syntax.lean ====
section
/-! DEFINITION. The 13 instructions of 30_encoding.md R67, one constructor per row of spec/opcode_table.json. -/

namespace Sys2Proof

/-- An instruction with the operand bytes it uses, as the fetch window holds them (30_encoding.md R66). A register
field is a whole byte (R63): 8 to 255 can stand in it, and the instruction's meaning then raises IllegalRegisterIndex
(60_exceptions.md R153). Bytes the opcode does not use are no part of it (R83). -/
inductive Instr where
  /-- HLT, 0x01, format Z (R100). -/
  | hlt
  /-- LDI ra, imm8, 0x82, format RI (R101). -/
  | ldi (ra imm : Byte)
  /-- PRN ra, 0x47, format R (R102). -/
  | prn (ra : Byte)
  /-- ADD ra, rb, 0xA0, format RR (R114). -/
  | add (ra rb : Byte)
  /-- MUL ra, rb, 0xA2, format RR (R115). -/
  | mul (ra rb : Byte)
  /-- PUSH ra, 0x45, format R (R120). -/
  | push (ra : Byte)
  /-- POP ra, 0x46, format R (R121). -/
  | pop (ra : Byte)
  /-- CALL ra, 0x50, format R (R131). -/
  | call (ra : Byte)
  /-- RET, 0x11, format Z (R132). -/
  | ret
  /-- CMP ra, rb, 0xA7, format RR (R116). -/
  | cmp (ra rb : Byte)
  /-- JMP ra, 0x54, format R (R141). -/
  | jmp (ra : Byte)
  /-- JEQ ra, 0x55, format R (R142). -/
  | jeq (ra : Byte)
  /-- JNE ra, 0x56, format R (R143). -/
  | jne (ra : Byte)
deriving DecidableEq, Repr

/-- The two operand positions, named as the fault record names them (60_exceptions.md R153). -/
inductive OperandField where
  | a
  | b
deriving DecidableEq, Repr

end Sys2Proof
end

