-- ==== Sys2Proof/WellFormed.lean ====
section
/-! DEFINITION. Which instructions have legal operands (30_encoding.md R63, R69). -/

namespace Sys2Proof

/-- A register field is legal when its byte is 0 to 7 (30_encoding.md R63). -/
def legalField (f : Byte) : Bool := decide (f.toNat < 8)

/-- Every register field the instruction uses is legal; LDI's immediate is unrestricted (30_encoding.md R64, R66, R69).
An instruction that is not well formed still decodes and runs: its meaning raises IllegalRegisterIndex. -/
def Instr.wellFormed : Instr → Bool
  | .hlt => true
  | .ldi ra _ => legalField ra
  | .prn ra => legalField ra
  | .add ra rb => legalField ra && legalField rb
  | .mul ra rb => legalField ra && legalField rb
  | .push ra => legalField ra
  | .pop ra => legalField ra
  | .call ra => legalField ra
  | .ret => true
  | .cmp ra rb => legalField ra && legalField rb
  | .jmp ra => legalField ra
  | .jeq ra => legalField ra
  | .jne ra => legalField ra

end Sys2Proof
end

