-- ==== Sys2Proof/Decode.lean ====
section
/-! DEFINITION. Decoding the three-byte fetch window, and the encoder (30_encoding.md). -/

namespace Sys2Proof

/-! The 13 opcode bytes of 30_encoding.md R67, in the table's order. -/

@[simp] abbrev Opcode.hlt  : Byte := 0b00000001#8
@[simp] abbrev Opcode.ldi  : Byte := 0b10000010#8
@[simp] abbrev Opcode.prn  : Byte := 0b01000111#8
@[simp] abbrev Opcode.add  : Byte := 0b10100000#8
@[simp] abbrev Opcode.mul  : Byte := 0b10100010#8
@[simp] abbrev Opcode.push : Byte := 0b01000101#8
@[simp] abbrev Opcode.pop  : Byte := 0b01000110#8
@[simp] abbrev Opcode.call : Byte := 0b01010000#8
@[simp] abbrev Opcode.ret  : Byte := 0b00010001#8
@[simp] abbrev Opcode.cmp  : Byte := 0b10100111#8
@[simp] abbrev Opcode.jmp  : Byte := 0b01010100#8
@[simp] abbrev Opcode.jeq  : Byte := 0b01010101#8
@[simp] abbrev Opcode.jne  : Byte := 0b01010110#8

/-- The 13 opcode bytes. Every other byte is an unknown opcode (30_encoding.md R68). -/
def knownOpcodes : List Byte :=
  [Opcode.hlt, Opcode.ldi, Opcode.prn, Opcode.add, Opcode.mul, Opcode.push, Opcode.pop, Opcode.call, Opcode.ret,
    Opcode.cmp, Opcode.jmp, Opcode.jeq, Opcode.jne]

/-- The fetch window: the bytes at `pc`, `pc+1` and `pc+2` (40_fetch_decode_execute.md R82). -/
structure Window where
  op : Byte
  a  : Byte
  b  : Byte
deriving DecidableEq, Repr

/-- Why the decoder gives no instruction. -/
inductive DecodeError where
  /-- The opcode byte is none of the 13 (30_encoding.md R68). -/
  | unknownOpcode (op : Byte)
deriving DecidableEq, Repr

/-- Decode the window. Only the opcode byte selects the instruction, all eight bits compared (30_encoding.md R62, R71);
the operand bytes it uses are taken as they stand (R66) and the others are dropped (R83). Register fields are checked
after decoding, in the instruction's meaning (40_fetch_decode_execute.md R86 phase 3). -/
def decode (w : Window) : Except DecodeError Instr :=
  if w.op = Opcode.hlt then .ok .hlt
  else if w.op = Opcode.ldi then .ok (.ldi w.a w.b)
  else if w.op = Opcode.prn then .ok (.prn w.a)
  else if w.op = Opcode.add then .ok (.add w.a w.b)
  else if w.op = Opcode.mul then .ok (.mul w.a w.b)
  else if w.op = Opcode.push then .ok (.push w.a)
  else if w.op = Opcode.pop then .ok (.pop w.a)
  else if w.op = Opcode.call then .ok (.call w.a)
  else if w.op = Opcode.ret then .ok .ret
  else if w.op = Opcode.cmp then .ok (.cmp w.a w.b)
  else if w.op = Opcode.jmp then .ok (.jmp w.a)
  else if w.op = Opcode.jeq then .ok (.jeq w.a)
  else if w.op = Opcode.jne then .ok (.jne w.a)
  else .error (.unknownOpcode w.op)

/-- The window at the head of a byte sequence; bytes past its end read as 0. -/
def Window.ofBytes (bytes : List Byte) : Window where
  op := bytes.getD 0 0#8
  a := bytes.getD 1 0#8
  b := bytes.getD 2 0#8

/-! ## The encoder -/

/-- The instruction's opcode byte (30_encoding.md R67). -/
def Instr.opcode : Instr → Byte
  | .hlt => Opcode.hlt
  | .ldi _ _ => Opcode.ldi
  | .prn _ => Opcode.prn
  | .add _ _ => Opcode.add
  | .mul _ _ => Opcode.mul
  | .push _ => Opcode.push
  | .pop _ => Opcode.pop
  | .call _ => Opcode.call
  | .ret => Opcode.ret
  | .cmp _ _ => Opcode.cmp
  | .jmp _ => Opcode.jmp
  | .jeq _ => Opcode.jeq
  | .jne _ => Opcode.jne

/-- The operand bytes in ascending address order: a, then b (30_encoding.md R60, R61). -/
def Instr.operands : Instr → List Byte
  | .hlt => []
  | .ldi ra imm => [ra, imm]
  | .prn ra => [ra]
  | .add ra rb => [ra, rb]
  | .mul ra rb => [ra, rb]
  | .push ra => [ra]
  | .pop ra => [ra]
  | .call ra => [ra]
  | .ret => []
  | .cmp ra rb => [ra, rb]
  | .jmp ra => [ra]
  | .jeq ra => [ra]
  | .jne ra => [ra]

/-- The instruction's bytes: opcode, then its operands (30_encoding.md R60). -/
def encode (i : Instr) : List Byte := i.opcode :: i.operands

/-- The instruction's total length in bytes, by the table of 30_encoding.md R67, R71. -/
def Instr.length : Instr → Nat
  | .hlt => 1
  | .ldi _ _ => 3
  | .prn _ => 2
  | .add _ _ => 3
  | .mul _ _ => 3
  | .push _ => 2
  | .pop _ => 2
  | .call _ => 2
  | .ret => 1
  | .cmp _ _ => 3
  | .jmp _ => 2
  | .jeq _ => 2
  | .jne _ => 2

/-! ## The opcode table's numbering -/

/-- The three window bytes of an instruction whose first `nbits` bits are `w`, bit 0 the least significant bit of the
first byte and a later byte's bits counting on from it; every bit above `nbits` is 0. -/
def Window.ofTableWord (nbits w : Nat) : Window where
  op := BitVec.ofNat 8 (w % 2 ^ nbits)
  a := BitVec.ofNat 8 (w % 2 ^ nbits / 256)
  b := BitVec.ofNat 8 (w % 2 ^ nbits / 65536)

/-- The instruction the decoder reads from the word `w` of `nbits` bits, if it reads one. -/
def decodeTableWord (nbits w : Nat) : Option Instr :=
  match decode (Window.ofTableWord nbits w) with
  | .ok i => some i
  | .error _ => none

end Sys2Proof
end

