-- ==== Sys2Proof/Machine/State.lean ====
section
/-! DEFINITION. The machine's state as plain data, its fault causes and its state after reset (10_state.md). -/

namespace Sys2Proof.Machine

/-- The causes of `raise Fault(cause)` with the details 60_exceptions.md R150 records. Raising one is a STATE CHANGE,
`run <- Faulted(cause)` and nothing else (R159), so the model takes it as a next state: `raiseFault` writes it into
`State.run`. No step of the model answers `Host.Outcome.fault`. -/
inductive Fault where
  /-- Code 1 (R151). Raised by `unknownOpcodeStep` when the byte at `pc` is no opcode and the policy is `fault`.
  Safe: it is the effect the spec describes. -/
  | illegalOpcode (opcode pc : Byte)
  /-- Code 2 (R153). Raised by `withRegA` and `withRegB` when a register field the instruction uses holds 8 to 255.
  Safe: it is the effect the spec describes. -/
  | illegalRegisterIndex (field : OperandField) (value opcode pc : Byte)
  /-- Code 3 (R154). Raised by `aluInstr` when the ALU gets an operation tag other than ADD, MUL, CMP, which no
  instruction passes. Safe: unreachable by construction, as the spec says. -/
  | unsupportedALUOperation
deriving DecidableEq, Repr

/-- Why `exec` has no meaning for an instruction. Every instruction of this machine has one. -/
inductive Refusal where
  /-- An instruction whose arm of `exec` has no meaning; no arm of this model answers it. Safe: the model stops. -/
  | notModelled (mnemonic : String)
deriving DecidableEq, Repr

/-- The run state (10_state.md R21). -/
inductive RunState where
  | running
  | halted
  | faulted (cause : Fault)
deriving DecidableEq, Repr

/-- The flag set: three separate booleans with no layout in a byte (10_state.md R18, R24). -/
structure Flags where
  equal   : Bool
  less    : Bool
  greater : Bool
deriving DecidableEq, Repr

/-- One `UnknownOpcode` diagnostic of the status interface (60_exceptions.md R152, decision D21). -/
structure Diagnostic where
  opcode : Byte
  pc     : Byte
deriving DecidableEq, Repr

/-- The memory array: (address, byte) pairs at strictly rising addresses, none of them holding the byte an unlisted
address reads as (`Memory.wf`; 10_state.md R26). -/
abbrev Memory := List Host.Cell

/-- The whole state (10_state.md, summary table), with the environment's two sequences (R27) and the parameter
UNKNOWN_OPCODE_POLICY (00_scope.md R5). -/
structure State where
  /-- R0 to R7, R7 being SP (R10, R13). -/
  regs        : Vector Byte 8
  /-- The program counter (R14, R15). -/
  pc          : Byte
  /-- Equal, Less, Greater (R18). -/
  flags       : Flags
  /-- Running, Halted or Faulted(cause) (R21). -/
  run         : RunState
  /-- The 256 memory slots (R26). -/
  mem         : Memory
  /-- The values PRN has handed over, oldest first (R27). -/
  output      : List Byte
  /-- The diagnostics emitted under `spin`, oldest first (R27, R152). -/
  diagnostics : List Diagnostic
  /-- The machine's UNKNOWN_OPCODE_POLICY; no step changes it (DESIGN CHOICE, log 4, safe). -/
  policy      : UnknownOpcodePolicy
deriving DecidableEq, Repr

/-- What a meaning and a step answer. -/
abbrev Result := Host.Outcome State Fault Refusal

/-- The machine right after reset: `pc = 0`, Running, SP = 0xF4, output empty (10_state.md R28, R29, R32, R180).
R0 to R6, the flags and memory are at the spec's simulator defaults, since the spec fixes no value (R30 to R32):
DESIGN CHOICE, log 1, 2, 3, unsafe for a claim that leans on those values. `policy` is the spec's default (R5). -/
def State.reset : State where
  regs := #v[0x00#8, 0x00#8, 0x00#8, 0x00#8, 0x00#8, 0x00#8, 0x00#8, Config.spReset]
  pc := Config.pcReset
  flags := ⟨false, false, false⟩
  run := .running
  mem := []
  output := []
  diagnostics := []
  policy := .fault

end Sys2Proof.Machine
end

