-- ==== Sys2Proof/Machine/Ops.lean ====
section
/-! DEFINITION. The operations every meaning is written with: memory, registers, `pc`, output, fault entry. -/

namespace Sys2Proof.Machine

/-! ## Memory (20_memory.md R41) -/

/-- What an address that memory does not list reads as: the spec's simulator default of INIT_MEM (10_state.md R32).
DESIGN CHOICE, log 1, unsafe for a claim that leans on it. -/
def Memory.unlisted : Byte := 0x00#8

/-- The canonical form: addresses inside 0 to 255 and strictly rising, no entry equal to the unlisted byte. -/
def Memory.wf : Memory → Bool
  | [] => true
  | (k, v) :: rest =>
    decide (k < Config.memSize) && decide (v ≠ Memory.unlisted) && rest.all (fun c => decide (k < c.1)) &&
      Memory.wf rest

/-- The byte listed at key `k`, or the unlisted byte. -/
def Memory.lookup : Memory → Nat → Byte
  | [], _ => Memory.unlisted
  | (k', v) :: rest, k => if k' = k then v else Memory.lookup rest k

/-- `MemRead(addr, 1)`: total, no side effect, cannot fault (20_memory.md R41). -/
def Memory.read (m : Memory) (addr : Byte) : Byte := Memory.lookup m addr.toNat

/-- Put an entry in its place by address. -/
def Memory.insertCell (c : Host.Cell) : Memory → Memory
  | [] => [c]
  | d :: rest => if c.1 < d.1 then c :: d :: rest else d :: Memory.insertCell c rest

/-- Remove every entry at key `k`. -/
def Memory.eraseKey : Memory → Nat → Memory
  | [], _ => []
  | (k', v) :: rest, k => if k' = k then Memory.eraseKey rest k else (k', v) :: Memory.eraseKey rest k

/-- `MemWrite(addr, 1, v)`: one slot changes and nothing else; cannot fault (20_memory.md R41). Writing the unlisted
byte removes the entry, so that equal memories are equal lists. -/
def Memory.write (m : Memory) (addr v : Byte) : Memory :=
  if v = Memory.unlisted then Memory.eraseKey m addr.toNat
  else Memory.insertCell (addr.toNat, v) (Memory.eraseKey m addr.toNat)

/-- Read one byte of the machine's memory. -/
def State.readMem (s : State) (addr : Byte) : Byte := Memory.read s.mem addr

/-- Write one byte of the machine's memory. -/
def State.writeMem (s : State) (addr v : Byte) : State := { s with mem := Memory.write s.mem addr v }

/-! ## Registers (10_state.md R10 to R13): none is hard-wired, R7 is an ordinary member. -/

/-- `x[r]`. -/
def State.reg (s : State) (r : RegIdx) : Byte := s.regs[r]

/-- `x[r] <- v`. -/
def State.setReg (s : State) (r : RegIdx) (v : Byte) : State := { s with regs := s.regs.set r.val v r.isLt }

/-- `SP`, shorthand for `x[7]` (00_scope.md R7). -/
def State.sp (s : State) : Byte := s.reg Config.spIndex

/-- `SP <- v`. -/
def State.setSp (s : State) (v : Byte) : State := s.setReg Config.spIndex v

/-! ## Program counter (10_state.md R14 to R17) -/

/-- `pc <- target`. -/
def State.setPc (s : State) (target : Byte) : State := { s with pc := target }

/-- The address `n` bytes past `addr`, modulo 256 (10_state.md R17, decision D2). -/
def addrPlus (addr : Byte) (n : Nat) : Byte := BitVec.ofNat 8 (addr.toNat + n)

/-- `pc <- (pc + n) mod 256`. -/
def State.advancePc (s : State) (n : Nat) : State := s.setPc (addrPlus s.pc n)

/-! ## Stack mechanism (20_memory.md R43, 43_stack.md R122): the only data addressing mode, SP-indirect. -/

/-- `(SP - 1) mod 256`, the address a push stores to. -/
def State.pushAddr (s : State) : Byte := BitVec.ofNat 8 (s.sp.toNat + 255)

/-- `SP <- (SP - 1) mod 256`. -/
def State.decSp (s : State) : State := s.setSp s.pushAddr

/-- `SP <- (SP + 1) mod 256`, read from SP as it is now. -/
def State.incSp (s : State) : State := s.setSp (addrPlus s.sp 1)

/-- Pre-decrement write: lower SP, then store `v` at the new SP. -/
def State.push (s : State) (v : Byte) : State := s.decSp.writeMem s.decSp.sp v

/-! ## Output, flags and run state -/

/-- `out(v)`: append to the output sequence; always succeeds (40_fetch_decode_execute.md R94). -/
def State.out (s : State) (v : Byte) : State := { s with output := s.output ++ [v] }

/-- Replace all three flags (42_alu.md R111). -/
def State.setFlags (s : State) (f : Flags) : State := { s with flags := f }

/-- `run <- r` (10_state.md R21). -/
def State.setRun (s : State) (r : RunState) : State := { s with run := r }

/-- One diagnostic on the status interface; no architectural state changes (60_exceptions.md R152). -/
def State.diagnose (s : State) (d : Diagnostic) : State := { s with diagnostics := s.diagnostics ++ [d] }

/-- TAKING AN EXCEPTION: `raise Fault(cause)` is `run <- Faulted(cause)` and nothing else (60_exceptions.md R159). No
control transfer, no saved register, no mode (R160). The machine has no return from it: Faulted is absorbing and only
reset leaves it (R161), see `State.applyReset`. -/
def raiseFault (cause : Fault) (s : State) : Result := .next (s.setRun (.faulted cause))

/-- What a step does on an unknown opcode, by UNKNOWN_OPCODE_POLICY (60_exceptions.md R151, R152). -/
def unknownOpcodeStep (op : Byte) (s : State) : Result :=
  match s.policy with
  | .fault => raiseFault (.illegalOpcode op s.pc) s
  | .spin => .next (s.diagnose ⟨op, s.pc⟩)

end Sys2Proof.Machine
end

