-- ==== Sys2Proof/Machine/Flags.lean ====
section
/-! DEFINITION. The one flag computation of the machine, CMP's, and the one flag test, of Equal. -/

namespace Sys2Proof.Machine

/-- The unsigned comparison of two bytes: all three flags, exactly one of them true (42_alu.md R110, R116). -/
def compareFlags (u v : Byte) : Flags where
  equal := decide (u.toNat = v.toNat)
  less := decide (u.toNat < v.toNat)
  greater := decide (u.toNat > v.toNat)

/-- A conditional jump's new `pc`: the target when `taken`, else past the two-byte instruction (45_jumps.md R140). -/
def State.branch (s : State) (taken : Bool) (target : Byte) : State :=
  if taken then s.setPc target else s.advancePc 2

end Sys2Proof.Machine
end

