-- ==== Sys2Proof/Machine/Operands.lean ====
section
/-! DEFINITION. The operand forms: a register field is range-checked before anything else happens
(30_encoding.md R63, R66; 40_fetch_decode_execute.md R86 phase 3). An immediate is the byte itself (R65). -/

namespace Sys2Proof.Machine

/-- A register field `value` in position `field` of the instruction whose opcode byte is `opcode`: 0 to 7 names a
register and `k` goes on with it; 8 to 255 raises IllegalRegisterIndex with nothing changed (60_exceptions.md R153). -/
def withRegField (field : OperandField) (opcode value : Byte) (s : State) (k : RegIdx → Result) : Result :=
  if h : value.toNat < 8 then k ⟨value.toNat, h⟩
  else raiseFault (.illegalRegisterIndex field value opcode s.pc) s

/-- Formats R and RI: the one register field `ra`. -/
def withRegA (opcode ra : Byte) (s : State) (k : RegIdx → Result) : Result :=
  withRegField .a opcode ra s k

/-- Format RR: `ra` is checked before `rb` (60_exceptions.md R158). -/
def withRegAB (opcode ra rb : Byte) (s : State) (k : RegIdx → RegIdx → Result) : Result :=
  withRegField .a opcode ra s fun a => withRegField .b opcode rb s fun b => k a b

end Sys2Proof.Machine
end

