-- ==== Sys2Proof/Machine/Alu.lean ====
section
/-! DEFINITION. The ALU and its instructions: ADD, MUL, CMP (42_alu.md). -/

namespace Sys2Proof.Machine

/-- What the ALU produces (42_alu.md R110, R112). -/
inductive AluResult where
  | value (v : Byte)
  | flags (f : Flags)
  /-- The failure of R112, which no instruction causes. -/
  | unsupported
deriving DecidableEq, Repr

/-- The ALU: a pure function of an operation tag and two register values (42_alu.md R110). The tag is the opcode byte;
any tag but ADD, MUL, CMP fails (R112). Sums and products are exact and then reduced modulo 256 (R117). -/
def alu (tag u v : Byte) : AluResult :=
  if tag = Opcode.add then .value (BitVec.ofNat 8 (u.toNat + v.toNat))
  else if tag = Opcode.mul then .value (BitVec.ofNat 8 (u.toNat * v.toNat))
  else if tag = Opcode.cmp then .flags (compareFlags u v)
  else .unsupported

/-- The shared handler of ADD, MUL and CMP (42_alu.md R111): both registers are read first; a value goes to `x[a]`,
flags replace all three; the ALU's failure raises UnsupportedALUOperation (60_exceptions.md R154). -/
def aluInstr (tag ra rb : Byte) (s : State) : Result :=
  withRegAB tag ra rb s fun a b =>
    match alu tag (s.reg a) (s.reg b) with
    | .value v => .next ((s.setReg a v).advancePc 3)
    | .flags f => .next ((s.setFlags f).advancePc 3)
    | .unsupported => raiseFault .unsupportedALUOperation s

/-- ADD (R114): `x[a] <- (x[a] + x[b]) mod 256`. -/
def execAdd (ra rb : Byte) (s : State) : Result := aluInstr Opcode.add ra rb s

/-- MUL (R115): `x[a] <- (x[a] * x[b]) mod 256`. -/
def execMul (ra rb : Byte) (s : State) : Result := aluInstr Opcode.mul ra rb s

/-- CMP (R116): the three flags from the unsigned comparison of `x[a]` with `x[b]`. -/
def execCmp (ra rb : Byte) (s : State) : Result := aluInstr Opcode.cmp ra rb s

end Sys2Proof.Machine
end

