-- ==== Sys2Proof/Machine/Control.lean ====
section
/-! DEFINITION. Machine control and data movement: HLT, LDI, PRN (41_machine_control_and_data.md). -/

namespace Sys2Proof.Machine

/-- HLT (R100): `run <- Halted; pc <- pc + 1`. -/
def execHlt (s : State) : Result := .next ((s.setRun .halted).advancePc 1)

/-- LDI (R101): `x[a] <- imm; pc <- pc + 3`. -/
def execLdi (ra imm : Byte) (s : State) : Result :=
  withRegA Opcode.ldi ra s fun a => .next ((s.setReg a imm).advancePc 3)

/-- PRN (R102): `out(x[a]); pc <- pc + 2`. -/
def execPrn (ra : Byte) (s : State) : Result :=
  withRegA Opcode.prn ra s fun a => .next ((s.out (s.reg a)).advancePc 2)

end Sys2Proof.Machine
end

