-- ==== Sys2Proof/Machine/Jumps.lean ====
section
/-! DEFINITION. Jumps: JMP, JEQ, JNE (45_jumps.md). Targets are absolute register contents (R140). -/

namespace Sys2Proof.Machine

/-- JMP (R141): `pc <- x[a]`. -/
def execJmp (ra : Byte) (s : State) : Result :=
  withRegA Opcode.jmp ra s fun a => .next (s.setPc (s.reg a))

/-- JEQ (R142): jump when Equal is true, else `pc + 2`. -/
def execJeq (ra : Byte) (s : State) : Result :=
  withRegA Opcode.jeq ra s fun a => .next (s.branch s.flags.equal (s.reg a))

/-- JNE (R143): jump when Equal is false, else `pc + 2`; Less and Greater are not consulted. -/
def execJne (ra : Byte) (s : State) : Result :=
  withRegA Opcode.jne ra s fun a => .next (s.branch (!s.flags.equal) (s.reg a))

end Sys2Proof.Machine
end

