-- ==== Sys2Proof/Machine/Stack.lean ====
section
/-! DEFINITION. Stack and subroutine instructions: PUSH, POP, CALL, RET (43_stack.md, 44_subroutine.md). The effects
happen in the written order, each seeing the writes before it (R124, decision D11). -/

namespace Sys2Proof.Machine

/-- PUSH (R120): `SP <- SP - 1; mem[SP] <- x[a]`, `x[a]` read after the decrement (it matters for `PUSH R7`). -/
def execPush (ra : Byte) (s : State) : Result :=
  withRegA Opcode.push ra s fun a => .next ((s.push (s.decSp.reg a)).advancePc 2)

/-- POP (R121): `x[a] <- mem[SP]; SP <- SP + 1`, SP read after the load (it matters for `POP R7`). -/
def execPop (ra : Byte) (s : State) : Result :=
  withRegA Opcode.pop ra s fun a => .next ((s.setReg a (s.readMem s.sp)).incSp.advancePc 2)

/-- CALL (R131): push `pc0 + 2`, then `pc <- x[a]`, read after the push (it matters for `CALL R7`). -/
def execCall (ra : Byte) (s : State) : Result :=
  withRegA Opcode.call ra s fun a =>
    let pushed := s.push (addrPlus s.pc 2)
    .next (pushed.setPc (pushed.reg a))

/-- RET (R132): `pc <- mem[SP]; SP <- SP + 1`, one increment (conflict C4). -/
def execRet (s : State) : Result := .next ((s.setPc (s.readMem s.sp)).incSp)

end Sys2Proof.Machine
end

