-- ==== Sys2Proof/Machine/Fetch.lean ====
section
/-! DEFINITION. The fetch window and storing an instruction where it is fetched (40_fetch_decode_execute.md R82). -/

namespace Sys2Proof.Machine

/-- The three window reads at `pc`, `pc+1`, `pc+2`, modulo 256, on every step whatever the opcode (R82). -/
def State.fetch (s : State) : Window where
  op := s.readMem s.pc
  a := s.readMem (addrPlus s.pc 1)
  b := s.readMem (addrPlus s.pc 2)

/-- Store a window's three bytes at `pc`, `pc+1`, `pc+2`, modulo 256. -/
def State.storeWindow (s : State) (w : Window) : State :=
  ((s.writeMem s.pc w.op).writeMem (addrPlus s.pc 1) w.a).writeMem (addrPlus s.pc 2) w.b

end Sys2Proof.Machine
end

