-- ==== Sys2Proof/Machine/Step.lean ====
section
/-! DEFINITION. The step (40_fetch_decode_execute.md R80, R81). -/

namespace Sys2Proof.Machine

/-- One step: in Running, fetch the window, decode, and run the one handler or the unknown-opcode behaviour (R80). In
Halted and Faulted the machine takes no step and every piece of state keeps its value (R81, R161): the state answers
itself (DESIGN CHOICE of form, log 5, safe). -/
def step (s : State) : Host.Outcome State Fault Refusal :=
  match s.run with
  | .running =>
    match decode s.fetch with
    | .ok i => exec i s
    | .error (.unknownOpcode op) => unknownOpcodeStep op s
  | .halted => .next s
  | .faulted _ => .next s

/-- `s` with the instruction of `nbits` bits `w` (numbered as spec/opcode_table.json numbers them, every bit above them
0) stored where the next step fetches, and Running, since only a Running machine fetches (R81). -/
def State.withFetchWord (s : State) (nbits w : Nat) : State :=
  (s.storeWindow (Window.ofTableWord nbits w)).setRun .running

end Sys2Proof.Machine
end

