-- ==== Sys2Proof/Machine/Boot.lean ====
section
/-! DEFINITION. The reset and load interface: what the environment does before a run (70_reset_and_hazards.md R180 to
R183, 40_fetch_decode_execute.md R96). These are moves of the environment, no part of `step` (log 13). -/

namespace Sys2Proof.Machine

/-- The values reset leaves unspecified (10_state.md R30, R31): INIT_REGS and INIT_FLAGS. -/
structure ResetValues where
  regs  : Vector Byte 7
  flags : Flags
deriving DecidableEq, Repr

/-- The launch state's open inputs (00_scope.md R5): the two above, INIT_MEM and UNKNOWN_OPCODE_POLICY. -/
structure LaunchParams where
  reset  : ResetValues
  mem    : Vector Byte 256
  policy : UnknownOpcodePolicy
deriving DecidableEq, Repr

/-- The simulator defaults of 00_scope.md R5: zeros, false, policy `fault`. -/
def LaunchParams.simulatorDefault : LaunchParams where
  reset := ⟨Vector.replicate 7 0x00#8, ⟨false, false, false⟩⟩
  mem := Vector.replicate 256 0x00#8
  policy := .fault

/-- The reset event, in any state (70_reset_and_hazards.md R180): `pc`, SP, `run` and the output sequence are set, R0 to
R6 and the flags take unspecified values, memory is not written. The policy and the diagnostics already emitted stay
(DESIGN CHOICE, log 12, safe: the spec's reset names neither). -/
def State.applyReset (v : ResetValues) (s : State) : State :=
  { s with
    pc := Config.pcReset
    regs := v.regs.push Config.spReset
    flags := v.flags
    run := .running
    output := [] }

/-- Write the bytes to consecutive addresses from `k` upward. -/
def Memory.writeFrom (k : Nat) (bytes : List Byte) (m : Memory) : Memory :=
  match bytes with
  | [] => m
  | v :: rest => Memory.writeFrom (k + 1) rest (Memory.write m (BitVec.ofNat 8 k) v)

/-- The loader's result: the image written from address 0 in encounter order; an image of more than 256 bytes is refused
(10_state.md R32, 70_reset_and_hazards.md R181, R182). -/
def State.loadImage (image : List Byte) (s : State) : Option State :=
  if image.length ≤ Config.memSize then some { s with mem := Memory.writeFrom 0 image s.mem } else none

/-- A machine before its first reset: memory as INIT_MEM has it. -/
def State.powerOn (p : LaunchParams) : State :=
  { State.reset with mem := Memory.writeFrom 0 p.mem.toList [], policy := p.policy }

/-- Boot (70_reset_and_hazards.md R183): reset is asserted, the image is written, reset is released. -/
def State.launch (p : LaunchParams) (image : List Byte) : Option State :=
  ((State.powerOn p).applyReset p.reset).loadImage image

end Sys2Proof.Machine
end

