-- ==== Sys2Proof/Machine/Bus.lean ====
section
/-! DEFINITION. The memory interface: the transactions a step issues (40_fetch_decode_execute.md R93, 20_memory.md R42,
R47). They are not state (10_state.md R27): a function of the state the step starts from. -/

namespace Sys2Proof.Machine

/-- One byte transaction. A read carries the byte it returns. -/
inductive BusEvent where
  | read (addr value : Byte)
  | write (addr value : Byte)
deriving DecidableEq, Repr

/-- The one data access of PUSH, POP, CALL and RET; none for the others (20_memory.md R42). An instruction with an
illegal register field faults before it (60_exceptions.md R153). -/
def dataAccess (i : Instr) (s : State) : List BusEvent :=
  match i with
  | .push ra => if h : ra.toNat < 8 then [.write s.pushAddr (s.decSp.reg ⟨ra.toNat, h⟩)] else []
  | .pop ra => if ra.toNat < 8 then [.read s.sp (s.readMem s.sp)] else []
  | .call ra => if ra.toNat < 8 then [.write s.pushAddr (addrPlus s.pc 2)] else []
  | .ret => [.read s.sp (s.readMem s.sp)]
  | .hlt | .ldi _ _ | .prn _ | .add _ _ | .mul _ _ | .cmp _ _ | .jmp _ | .jeq _ | .jne _ => []

/-- The three window reads, on every step whatever the opcode (40_fetch_decode_execute.md R82). -/
def State.windowReads (s : State) : List BusEvent :=
  [.read s.pc s.fetch.op, .read (addrPlus s.pc 1) s.fetch.a, .read (addrPlus s.pc 2) s.fetch.b]

/-- All transactions of the step from `s`, in order; none in Halted and Faulted (R81, R93). -/
def State.busEvents (s : State) : List BusEvent :=
  match s.run with
  | .running =>
    match decode s.fetch with
    | .ok i => s.windowReads ++ dataAccess i s
    | .error _ => s.windowReads
  | .halted => []
  | .faulted _ => []

/-- What a transaction does to memory: a read has no side effect (20_memory.md R46). -/
def BusEvent.apply (m : Memory) : BusEvent → Memory
  | .read _ _ => m
  | .write addr v => Memory.write m addr v

end Sys2Proof.Machine
end

