-- ==== Sys2Proof/Machine/Environment.lean ====
section
/-! DEFINITION. How the environment shows what the core hands it: fault codes, console text, assembly text. None of it
is read by the core. -/

namespace Sys2Proof.Machine

/-- The cause codes of the status interface (60_exceptions.md R150). -/
def Fault.code : Fault → Nat
  | .illegalOpcode _ _ => 1
  | .illegalRegisterIndex _ _ _ _ => 2
  | .unsupportedALUOperation => 3

/-- One value on the console: unsigned decimal, no padding, one line feed (41_machine_control_and_data.md R102, D12). -/
def consoleLine (v : Byte) : String := toString v.toNat ++ "\n"

/-- The console's text for the output sequence. -/
def consoleText (values : List Byte) : String := String.join (values.map consoleLine)

/-- A register field in assembly text (30_encoding.md R73). -/
def asmReg (f : Byte) : String := "R" ++ toString f.toNat

end Sys2Proof.Machine

namespace Sys2Proof

open Machine in
/-- The instruction in assembly text: mnemonic, a space, operands separated by a comma (30_encoding.md R73). -/
def Instr.asm : Instr → String
  | .hlt => "HLT"
  | .ldi ra imm => "LDI " ++ asmReg ra ++ "," ++ toString imm.toNat
  | .prn ra => "PRN " ++ asmReg ra
  | .add ra rb => "ADD " ++ asmReg ra ++ "," ++ asmReg rb
  | .mul ra rb => "MUL " ++ asmReg ra ++ "," ++ asmReg rb
  | .push ra => "PUSH " ++ asmReg ra
  | .pop ra => "POP " ++ asmReg ra
  | .call ra => "CALL " ++ asmReg ra
  | .ret => "RET"
  | .cmp ra rb => "CMP " ++ asmReg ra ++ "," ++ asmReg rb
  | .jmp ra => "JMP " ++ asmReg ra
  | .jeq ra => "JEQ " ++ asmReg ra
  | .jne ra => "JNE " ++ asmReg ra

end Sys2Proof
end

