-- ==== Sys2Proof/Safety.lean ====
section
/-! DEFINITION. What counts as a good end, a bad end and a good state, in the terms the statements use. -/

namespace Sys2Proof

/-- The register field whose check fails first, `ra` before `rb`, with its value (60_exceptions.md R153, R158); none for
a well-formed instruction. -/
def Instr.firstIllegalField : Instr → Option (OperandField × Byte)
  | .hlt => none
  | .ldi ra _ => if legalField ra then none else some (.a, ra)
  | .prn ra => if legalField ra then none else some (.a, ra)
  | .add ra rb => if !legalField ra then some (.a, ra) else if !legalField rb then some (.b, rb) else none
  | .mul ra rb => if !legalField ra then some (.a, ra) else if !legalField rb then some (.b, rb) else none
  | .push ra => if legalField ra then none else some (.a, ra)
  | .pop ra => if legalField ra then none else some (.a, ra)
  | .call ra => if legalField ra then none else some (.a, ra)
  | .ret => none
  | .cmp ra rb => if !legalField ra then some (.a, ra) else if !legalField rb then some (.b, rb) else none
  | .jmp ra => if legalField ra then none else some (.a, ra)
  | .jeq ra => if legalField ra then none else some (.a, ra)
  | .jne ra => if legalField ra then none else some (.a, ra)

end Sys2Proof

namespace Sys2Proof.Machine

/-- The run has ended normally (40_fetch_decode_execute.md R90). -/
def State.endedNormally (s : State) : Bool := decide (s.run = .halted)

/-- The run has gone wrong: Faulted, never a normal end (60_exceptions.md R161). -/
def State.goneWrong (s : State) : Bool :=
  match s.run with
  | .running => false
  | .halted => false
  | .faulted _ => true

/-- Exactly one flag is true, as after every CMP (10_state.md R20). -/
def Flags.oneHot (f : Flags) : Bool :=
  (f.equal && !f.less && !f.greater) || (!f.equal && f.less && !f.greater) || (!f.equal && !f.less && f.greater)

/-- The run state tells the truth about memory and `pc`. Halted: the byte before `pc` is the HLT opcode
(40_fetch_decode_execute.md R90). Faulted: the record describes the bytes at `pc`, which still addresses the faulting
instruction (60_exceptions.md R150, R159), and the cause is not the unreachable one (R154). -/
def State.runRecordTrue (s : State) : Bool :=
  match s.run with
  | .running => true
  | .halted => decide (s.readMem (s.pc - 1#8) = 0x01#8)
  | .faulted (.illegalOpcode op pc) =>
    decide (pc = s.pc) && decide (op = s.readMem s.pc) && !knownOpcodes.contains op
  | .faulted (.illegalRegisterIndex field value op pc) =>
    decide (pc = s.pc) &&
      match decode s.fetch with
      | .ok i => decide (op = i.opcode) && decide (i.firstIllegalField = some (field, value))
      | .error _ => false
  | .faulted .unsupportedALUOperation => false

/-- The invariant of the machine: memory is in canonical form inside 0 to 255, the run state tells the truth, and every
diagnostic is about an unknown opcode (60_exceptions.md R152). -/
def State.inv (s : State) : Bool :=
  Memory.wf s.mem && s.runRecordTrue && s.diagnostics.all (fun d => !knownOpcodes.contains d.opcode)

end Sys2Proof.Machine

namespace Sys2Proof.Machine

/-- `k` steps from `s` (40_fetch_decode_execute.md R88). -/
def runSteps (k : Nat) (s : State) : Result := Sys2Proof.core.run k s

/-- The instructions that set `pc` with data (10_state.md R16). -/
def controlTransfer : Instr → Bool
  | .call _ => true
  | .ret => true
  | .jmp _ => true
  | .jeq _ => true
  | .jne _ => true
  | .hlt | .ldi _ _ | .prn _ | .add _ _ | .mul _ _ | .push _ | .pop _ | .cmp _ _ => false

end Sys2Proof.Machine
end

