-- ==== Sys2Proof/Certificates/Slice0/Obligations.lean ====
section
/-! DEFINITION. The statements for the provers. "D<n>" is a decision of spec/92_eei_decisions.md, which the spec marks as
its own choice; "log <n>" is notes/assumptions/<n>.md. -/

open Sys2Proof Sys2Proof.Machine

/-! ## Decoding and encoding -/

/-- 30_encoding.md R61, R62, R66, R67: each opcode byte, written out in binary, decodes to its instruction whatever the
operand bytes hold, with exactly the operand bytes the instruction uses. -/
def Obligations.DecodeReadsOpcodeTable : Prop :=
  ∀ a b : Byte,
    decode ⟨0b00000001#8, a, b⟩ = .ok .hlt ∧
    decode ⟨0b10000010#8, a, b⟩ = .ok (.ldi a b) ∧
    decode ⟨0b01000111#8, a, b⟩ = .ok (.prn a) ∧
    decode ⟨0b10100000#8, a, b⟩ = .ok (.add a b) ∧
    decode ⟨0b10100010#8, a, b⟩ = .ok (.mul a b) ∧
    decode ⟨0b01000101#8, a, b⟩ = .ok (.push a) ∧
    decode ⟨0b01000110#8, a, b⟩ = .ok (.pop a) ∧
    decode ⟨0b01010000#8, a, b⟩ = .ok (.call a) ∧
    decode ⟨0b00010001#8, a, b⟩ = .ok .ret ∧
    decode ⟨0b10100111#8, a, b⟩ = .ok (.cmp a b) ∧
    decode ⟨0b01010100#8, a, b⟩ = .ok (.jmp a) ∧
    decode ⟨0b01010101#8, a, b⟩ = .ok (.jeq a) ∧
    decode ⟨0b01010110#8, a, b⟩ = .ok (.jne a)

/-- 30_encoding.md R60, R66, R71: decode and encode agree in both directions. Decoding an instruction's own bytes gives it
back, with every operand byte at every value and whatever bytes follow; and a decoded instruction's encoding is the first
bytes of the window, as many as its length, which is 1, 2 or 3. -/
def Obligations.DecodeAndEncodeAgree : Prop :=
  (∀ (i : Instr) (rest : List Byte), decode (Window.ofBytes (encode i ++ rest)) = .ok i) ∧
  (∀ (w : Window) (i : Instr), decode w = .ok i →
    encode i = [w.op, w.a, w.b].take i.length ∧ 1 ≤ i.length ∧ i.length ≤ 3)

/-- 30_encoding.md R62, R67, R68: the decoder refuses exactly the bytes that are none of the 13 opcodes, by name; the
operand bytes take no part. -/
def Obligations.DecodeRefusesExactlyUnknownOpcodes : Prop :=
  ∀ w : Window,
    (decode w = .error (.unknownOpcode w.op) ↔
      w.op ∉ [0x01#8, 0x82#8, 0x47#8, 0xA0#8, 0xA2#8, 0x45#8, 0x46#8, 0x50#8, 0x11#8, 0xA7#8, 0x54#8, 0x55#8, 0x56#8]) ∧
    ((∃ e, decode w = .error e) → decode w = .error (.unknownOpcode w.op))

/-- 40_fetch_decode_execute.md R83: window bytes past the instruction's length have no effect on what is decoded. -/
def Obligations.UnusedWindowBytesAreIgnored : Prop :=
  ∀ (w : Window) (i : Instr) (a' b' : Byte), decode w = .ok i →
    (i.length ≤ 2 → decode ⟨w.op, w.a, b'⟩ = .ok i) ∧ (i.length ≤ 1 → decode ⟨w.op, a', b'⟩ = .ok i)

/-! ## The step -/

/-- 40_fetch_decode_execute.md R80, R82 (window addresses modulo 256: D2): a Running machine whose bytes at `pc`, `pc+1`,
`pc+2` decode to an instruction runs exactly that instruction. -/
def Obligations.StepRunsDecodedInstruction : Prop :=
  ∀ (s : State) (i : Instr), s.run = .running →
    decode ⟨s.readMem s.pc, s.readMem (s.pc + 1#8), s.readMem (s.pc + 2#8)⟩ = .ok i → step s = exec i s

/-- 30_encoding.md R60, 40_fetch_decode_execute.md R80 to R84 (addresses modulo 256: D2): a Running machine whose memory
holds an instruction's encoding from `pc` upward runs that instruction, whatever the other bytes of the window hold. -/
def Obligations.EncodedInstructionAtPcIsRun : Prop :=
  ∀ (s : State) (i : Instr), s.run = .running →
    (∀ (k : Nat) (h : k < (encode i).length), s.readMem (s.pc + BitVec.ofNat 8 k) = (encode i)[k]) →
    step s = exec i s

/-- The model's loading aid (log 11): an instruction stored with `withFetchWord` is the window the next step fetches, it
is what the step runs, and registers, flags, `pc`, output and all other memory bytes are as they were. -/
def Obligations.StoredWordIsTheOneFetched : Prop :=
  ∀ (s : State) (nbits w : Nat),
    (s.withFetchWord nbits w).fetch = Window.ofTableWord nbits w ∧
    (∀ i, decodeTableWord nbits w = some i → step (s.withFetchWord nbits w) = exec i (s.withFetchWord nbits w)) ∧
    (s.withFetchWord nbits w).run = .running ∧
    (∀ r, (s.withFetchWord nbits w).reg r = s.reg r) ∧
    (s.withFetchWord nbits w).pc = s.pc ∧ (s.withFetchWord nbits w).flags = s.flags ∧
    (s.withFetchWord nbits w).output = s.output ∧
    (∀ x : Byte, x ≠ s.pc → x ≠ s.pc + 1#8 → x ≠ s.pc + 2#8 →
      (s.withFetchWord nbits w).readMem x = s.readMem x)

/-- 60_exceptions.md R156 and 40_fetch_decode_execute.md R88: from every state the step answers a next state, and so does
every instruction with every operand; the model never stops (log 5, 6). -/
def Obligations.EveryStepAnswersNext : Prop :=
  (∀ s : State, ∃ t, step s = .next t) ∧ (∀ (i : Instr) (s : State), ∃ t, exec i s = .next t)

/-- 40_fetch_decode_execute.md R81, 60_exceptions.md R161 (D16; log 5 for the form): in Halted and in Faulted nothing
changes, for any number of steps. -/
def Obligations.StoppedMachineNeverChanges : Prop :=
  ∀ (s : State) (k : Nat), s.run ≠ .running → runSteps k s = .next s

/-- 10_state.md R16, 30_encoding.md R71 (modulo 256: D2): an instruction that is no control transfer and has legal fields
leaves `pc` past its own bytes. -/
def Obligations.StraightLineAdvancesByLength : Prop :=
  ∀ (i : Instr) (s : State), i.wellFormed = true → controlTransfer i = false →
    ∃ t, exec i s = .next t ∧ t.pc = s.pc + BitVec.ofNat 8 i.length

/-! ## Machine control and data movement -/

/-- 41_machine_control_and_data.md R100: HLT's encoding, whatever the two bytes after it hold; its whole effect; and that
no other opcode reaches Halted. The last clause, that no later step changes anything, is not R100's alone: that a Halted
machine holds its state is the spec's decision D16 (R81), and that `step` then answers the same state is the model's choice
of form (DESIGN CHOICE, log 5). -/
def Obligations.HltHaltsAndAdvancesByOne : Prop :=
  encode .hlt = [0x01#8] ∧ (∀ a b, decode ⟨0x01#8, a, b⟩ = .ok .hlt) ∧
  (∀ s t : State, s.run = .running → step s = .next t → t.run = .halted → s.readMem s.pc = 0x01#8) ∧
  ∀ s : State, ∃ t, exec .hlt s = .next t ∧ t.run = .halted ∧ t.pc = s.pc + 1#8 ∧
    (∀ r, t.reg r = s.reg r) ∧ t.flags = s.flags ∧ (∀ x, t.readMem x = s.readMem x) ∧ t.output = s.output ∧
    t.diagnostics = s.diagnostics ∧ t.policy = s.policy ∧ (∀ k, runSteps k t = .next t)

/-- 41_machine_control_and_data.md R101. `ra = 7` is the stack pointer like any register. -/
def Obligations.LdiLoadsImmediate : Prop :=
  ∀ (ra imm : Byte) (s : State),
    encode (.ldi ra imm) = [0x82#8, ra, imm] ∧
    (∀ h : ra.toNat < 8, ∃ t, exec (.ldi ra imm) s = .next t ∧
      (∀ r, t.reg r = if r = ⟨ra.toNat, h⟩ then imm else s.reg r) ∧ t.pc = s.pc + 3#8 ∧
      t.flags = s.flags ∧ t.run = s.run ∧ (∀ x, t.readMem x = s.readMem x) ∧ t.output = s.output ∧
      t.diagnostics = s.diagnostics ∧ t.policy = s.policy) ∧
    (8 ≤ ra.toNat →
      exec (.ldi ra imm) s = .next { s with run := .faulted (.illegalRegisterIndex .a ra 0x82#8 s.pc) })

/-- 41_machine_control_and_data.md R102, the core's side (the console's text is D12). -/
def Obligations.PrnAppendsRegisterToOutput : Prop :=
  ∀ (ra : Byte) (s : State),
    encode (.prn ra) = [0x47#8, ra] ∧
    (∀ h : ra.toNat < 8, ∃ t, exec (.prn ra) s = .next t ∧
      t.output = s.output ++ [s.reg ⟨ra.toNat, h⟩] ∧ t.pc = s.pc + 2#8 ∧
      (∀ r, t.reg r = s.reg r) ∧ t.flags = s.flags ∧ t.run = s.run ∧ (∀ x, t.readMem x = s.readMem x) ∧
      t.diagnostics = s.diagnostics ∧ t.policy = s.policy) ∧
    (8 ≤ ra.toNat →
      exec (.prn ra) s = .next { s with run := .faulted (.illegalRegisterIndex .a ra 0x47#8 s.pc) })

/-- 30_encoding.md R65: LDI followed by PRN on the same register outputs exactly the loaded immediate, whatever the
value, the register and the state. -/
def Obligations.LdiThenPrnOutputsImmediate : Prop :=
  ∀ (ra imm : Byte) (s : State), ra.toNat < 8 →
    ∃ t u, exec (.ldi ra imm) s = .next t ∧ exec (.prn ra) t = .next u ∧ u.output = s.output ++ [imm]

/-! ## The ALU -/

/-- 42_alu.md R110: the ALU's three operations on unsigned bytes. -/
def Obligations.AluIsModularArithmeticAndComparison : Prop :=
  ∀ u v : Byte,
    (∃ w, alu 0xA0#8 u v = .value w ∧ w.toNat = (u.toNat + v.toNat) % 256) ∧
    (∃ w, alu 0xA2#8 u v = .value w ∧ w.toNat = (u.toNat * v.toNat) % 256) ∧
    (∃ f, alu 0xA7#8 u v = .flags f ∧ (f.equal = true ↔ u.toNat = v.toNat) ∧ (f.less = true ↔ u.toNat < v.toNat) ∧
      (f.greater = true ↔ u.toNat > v.toNat))

/-- 42_alu.md R118: as values, ADD and MUL commute and associate, and MUL distributes over ADD, modulo 256. -/
def Obligations.AluAlgebraicLaws : Prop :=
  (∀ u v : Byte, alu 0xA0#8 u v = alu 0xA0#8 v u ∧ alu 0xA2#8 u v = alu 0xA2#8 v u) ∧
  (∀ u v w uv vw : Byte, alu 0xA0#8 u v = .value uv → alu 0xA0#8 v w = .value vw →
    alu 0xA0#8 uv w = alu 0xA0#8 u vw) ∧
  (∀ u v w uv vw : Byte, alu 0xA2#8 u v = .value uv → alu 0xA2#8 v w = .value vw →
    alu 0xA2#8 uv w = alu 0xA2#8 u vw) ∧
  (∀ u v w vw uv uw : Byte, alu 0xA0#8 v w = .value vw → alu 0xA2#8 u v = .value uv → alu 0xA2#8 u w = .value uw →
    alu 0xA2#8 u vw = alu 0xA0#8 uv uw)

/-- 42_alu.md R112, 60_exceptions.md R154: the ALU fails for every tag but ADD, MUL, CMP and its caller then raises
UnsupportedALUOperation, changing nothing else; but no step of the machine ever enters that fault. -/
def Obligations.UnsupportedAluOperationIsUnreachable : Prop :=
  (∀ tag u v : Byte, tag ∉ [0xA0#8, 0xA2#8, 0xA7#8] → alu tag u v = .unsupported) ∧
  (∀ (tag ra rb : Byte) (s : State), tag ∉ [0xA0#8, 0xA2#8, 0xA7#8] → ra.toNat < 8 → rb.toNat < 8 →
    aluInstr tag ra rb s = .next { s with run := .faulted .unsupportedALUOperation }) ∧
  (∀ s t : State, s.run ≠ .faulted .unsupportedALUOperation → step s = .next t →
    t.run ≠ .faulted .unsupportedALUOperation)

/-- 42_alu.md R114. The faults are R153's: field a is reported before field b. -/
def Obligations.AddWrapsModulo256 : Prop :=
  ∀ (ra rb : Byte) (s : State),
    encode (.add ra rb) = [0xA0#8, ra, rb] ∧
    (∀ (ha : ra.toNat < 8) (hb : rb.toNat < 8), ∃ t, exec (.add ra rb) s = .next t ∧
      (t.reg ⟨ra.toNat, ha⟩).toNat = ((s.reg ⟨ra.toNat, ha⟩).toNat + (s.reg ⟨rb.toNat, hb⟩).toNat) % 256 ∧
      (∀ r, r ≠ ⟨ra.toNat, ha⟩ → t.reg r = s.reg r) ∧ t.pc = s.pc + 3#8 ∧
      t.flags = s.flags ∧ t.run = s.run ∧ (∀ x, t.readMem x = s.readMem x) ∧ t.output = s.output ∧
      t.diagnostics = s.diagnostics ∧ t.policy = s.policy) ∧
    (8 ≤ ra.toNat →
      exec (.add ra rb) s = .next { s with run := .faulted (.illegalRegisterIndex .a ra 0xA0#8 s.pc) }) ∧
    (ra.toNat < 8 → 8 ≤ rb.toNat →
      exec (.add ra rb) s = .next { s with run := .faulted (.illegalRegisterIndex .b rb 0xA0#8 s.pc) })

/-- 42_alu.md R115: only the low eight bits of the product are kept. -/
def Obligations.MulKeepsLowByteOfProduct : Prop :=
  ∀ (ra rb : Byte) (s : State),
    encode (.mul ra rb) = [0xA2#8, ra, rb] ∧
    (∀ (ha : ra.toNat < 8) (hb : rb.toNat < 8), ∃ t, exec (.mul ra rb) s = .next t ∧
      (t.reg ⟨ra.toNat, ha⟩).toNat = ((s.reg ⟨ra.toNat, ha⟩).toNat * (s.reg ⟨rb.toNat, hb⟩).toNat) % 256 ∧
      (∀ r, r ≠ ⟨ra.toNat, ha⟩ → t.reg r = s.reg r) ∧ t.pc = s.pc + 3#8 ∧
      t.flags = s.flags ∧ t.run = s.run ∧ (∀ x, t.readMem x = s.readMem x) ∧ t.output = s.output ∧
      t.diagnostics = s.diagnostics ∧ t.policy = s.policy) ∧
    (8 ≤ ra.toNat →
      exec (.mul ra rb) s = .next { s with run := .faulted (.illegalRegisterIndex .a ra 0xA2#8 s.pc) }) ∧
    (ra.toNat < 8 → 8 ≤ rb.toNat →
      exec (.mul ra rb) s = .next { s with run := .faulted (.illegalRegisterIndex .b rb 0xA2#8 s.pc) })

/-- 42_alu.md R116: all three flags from the unsigned comparison, exactly one of them true; no register is written. -/
def Obligations.CmpSetsAllThreeFlags : Prop :=
  ∀ (ra rb : Byte) (s : State),
    encode (.cmp ra rb) = [0xA7#8, ra, rb] ∧
    (∀ (ha : ra.toNat < 8) (hb : rb.toNat < 8), ∃ t, exec (.cmp ra rb) s = .next t ∧
      (t.flags.equal = true ↔ (s.reg ⟨ra.toNat, ha⟩).toNat = (s.reg ⟨rb.toNat, hb⟩).toNat) ∧
      (t.flags.less = true ↔ (s.reg ⟨ra.toNat, ha⟩).toNat < (s.reg ⟨rb.toNat, hb⟩).toNat) ∧
      (t.flags.greater = true ↔ (s.reg ⟨ra.toNat, ha⟩).toNat > (s.reg ⟨rb.toNat, hb⟩).toNat) ∧
      t.flags.oneHot = true ∧ (∀ r, t.reg r = s.reg r) ∧ t.pc = s.pc + 3#8 ∧
      t.run = s.run ∧ (∀ x, t.readMem x = s.readMem x) ∧ t.output = s.output ∧
      t.diagnostics = s.diagnostics ∧ t.policy = s.policy) ∧
    (8 ≤ ra.toNat →
      exec (.cmp ra rb) s = .next { s with run := .faulted (.illegalRegisterIndex .a ra 0xA7#8 s.pc) }) ∧
    (ra.toNat < 8 → 8 ≤ rb.toNat →
      exec (.cmp ra rb) s = .next { s with run := .faulted (.illegalRegisterIndex .b rb 0xA7#8 s.pc) })

/-- 45_jumps.md R142, R143 with 42_alu.md R116: after a CMP, JEQ jumps exactly when the two registers were equal and JNE
exactly when they were not; the one that does not jump advances by 2. -/
def Obligations.CmpThenConditionalJumps : Prop :=
  ∀ (ra rb rt : Byte) (s : State) (ha : ra.toNat < 8) (hb : rb.toNat < 8) (ht : rt.toNat < 8),
    ∃ t u v, exec (.cmp ra rb) s = .next t ∧ exec (.jeq rt) t = .next u ∧ exec (.jne rt) t = .next v ∧
      (s.reg ⟨ra.toNat, ha⟩ = s.reg ⟨rb.toNat, hb⟩ → u.pc = s.reg ⟨rt.toNat, ht⟩ ∧ v.pc = s.pc + 5#8) ∧
      (s.reg ⟨ra.toNat, ha⟩ ≠ s.reg ⟨rb.toNat, hb⟩ → u.pc = s.pc + 5#8 ∧ v.pc = s.reg ⟨rt.toNat, ht⟩)

/-! ## The stack -/

/-- 43_stack.md R120 (SP modulo 256: D3; the stored value when `ra = 7` is the NEW SP: D11). The store goes to
`pushAddr`, which is SP - 1. -/
def Obligations.PushStoresBelowStackPointer : Prop :=
  ∀ (ra : Byte) (s : State),
    encode (.push ra) = [0x45#8, ra] ∧ s.pushAddr = s.reg 7 - 1#8 ∧
    (∀ h : ra.toNat < 8, ∃ t, exec (.push ra) s = .next t ∧
      (∀ r, t.reg r = if r = 7 then s.reg 7 - 1#8 else s.reg r) ∧
      (∀ x, t.readMem x = if x = s.pushAddr then t.reg ⟨ra.toNat, h⟩ else s.readMem x) ∧ t.pc = s.pc + 2#8 ∧
      t.flags = s.flags ∧ t.run = s.run ∧ t.output = s.output ∧ t.diagnostics = s.diagnostics ∧ t.policy = s.policy) ∧
    (8 ≤ ra.toNat →
      exec (.push ra) s = .next { s with run := .faulted (.illegalRegisterIndex .a ra 0x45#8 s.pc) })

/-- 43_stack.md R121 (SP modulo 256: D3; for `ra = 7` the increment is of the value just loaded: D11). -/
def Obligations.PopLoadsAndRaisesStackPointer : Prop :=
  ∀ (ra : Byte) (s : State),
    encode (.pop ra) = [0x46#8, ra] ∧
    (∀ h : ra.toNat < 8, ∃ t, exec (.pop ra) s = .next t ∧
      (ra.toNat ≠ 7 → ∀ r, t.reg r =
        if r = 7 then s.reg 7 + 1#8 else if r = ⟨ra.toNat, h⟩ then s.readMem (s.reg 7) else s.reg r) ∧
      (ra.toNat = 7 → ∀ r, t.reg r = if r = 7 then s.readMem (s.reg 7) + 1#8 else s.reg r) ∧
      t.pc = s.pc + 2#8 ∧ t.flags = s.flags ∧ t.run = s.run ∧ (∀ x, t.readMem x = s.readMem x) ∧
      t.output = s.output ∧ t.diagnostics = s.diagnostics ∧ t.policy = s.policy) ∧
    (8 ≤ ra.toNat →
      exec (.pop ra) s = .next { s with run := .faulted (.illegalRegisterIndex .a ra 0x46#8 s.pc) })

/-- 43_stack.md R125: a push and a pop on registers other than R7 carry the value over, restore SP from every starting
value, and change one memory byte. -/
def Obligations.PushPopRoundTrip : Prop :=
  ∀ (ra rb : Byte) (s : State) (ha : ra.toNat < 7) (hb : rb.toNat < 7),
    ∃ t u, exec (.push ra) s = .next t ∧ exec (.pop rb) t = .next u ∧
      u.reg ⟨rb.toNat, Nat.lt_succ_of_lt hb⟩ = s.reg ⟨ra.toNat, Nat.lt_succ_of_lt ha⟩ ∧
      (∀ r : RegIdx, r.val ≠ rb.toNat → u.reg r = s.reg r) ∧
      (∀ x, u.readMem x = if x = s.pushAddr then s.reg ⟨ra.toNat, Nat.lt_succ_of_lt ha⟩ else s.readMem x)

/-- 43_stack.md R123, R125 (SP modulo 256: D3): two items pushed from any registers other than R7 and popped into any such
registers come off in the reverse order of going on; the first pop's register holds the second item unless the second pop
overwrites it. SP and every register that no pop names are as before, and memory changes only in the two slots below SP. -/
def Obligations.StackIsLastInFirstOut : Prop :=
  ∀ (ra rb rc rd : Byte) (s : State) (ha : ra.toNat < 7) (hb : rb.toNat < 7) (hc : rc.toNat < 7) (hd : rd.toNat < 7),
    ∃ s1 s2 s3 s4,
      exec (.push ra) s = .next s1 ∧ exec (.push rb) s1 = .next s2 ∧
      exec (.pop rc) s2 = .next s3 ∧ exec (.pop rd) s3 = .next s4 ∧
      s3.reg ⟨rc.toNat, Nat.lt_succ_of_lt hc⟩ = s.reg ⟨rb.toNat, Nat.lt_succ_of_lt hb⟩ ∧
      (rc ≠ rd → s4.reg ⟨rc.toNat, Nat.lt_succ_of_lt hc⟩ = s.reg ⟨rb.toNat, Nat.lt_succ_of_lt hb⟩) ∧
      s4.reg ⟨rd.toNat, Nat.lt_succ_of_lt hd⟩ = s.reg ⟨ra.toNat, Nat.lt_succ_of_lt ha⟩ ∧
      (∀ r : RegIdx, r.val ≠ rc.toNat → r.val ≠ rd.toNat → s4.reg r = s.reg r) ∧
      (∀ x, s4.readMem x =
        if x = s.reg 7 - 2#8 then s.reg ⟨rb.toNat, Nat.lt_succ_of_lt hb⟩
        else if x = s.reg 7 - 1#8 then s.reg ⟨ra.toNat, Nat.lt_succ_of_lt ha⟩
        else s.readMem x)

/-- 43_stack.md R124, 44_subroutine.md R131, the three forms that name R7 (D11, log 9): PUSH R7 stores the new SP, POP R7
leaves the loaded byte plus 1, CALL R7 jumps to the new SP. -/
def Obligations.StackInstructionsNamingR7 : Prop :=
  ∀ s : State,
    (∃ t, exec (.push 0x07#8) s = .next t ∧ t.reg 7 = s.reg 7 - 1#8 ∧ t.readMem (s.reg 7 - 1#8) = s.reg 7 - 1#8) ∧
    (∃ t, exec (.pop 0x07#8) s = .next t ∧ t.reg 7 = s.readMem (s.reg 7) + 1#8) ∧
    (∃ t, exec (.call 0x07#8) s = .next t ∧ t.reg 7 = s.reg 7 - 1#8 ∧ t.pc = s.reg 7 - 1#8 ∧
      t.readMem (s.reg 7 - 1#8) = s.pc + 2#8)

/-! ## Subroutines -/

/-- 44_subroutine.md R131 (return address modulo 256: D2; target read after the push: D11). -/
def Obligations.CallPushesReturnAddressAndJumps : Prop :=
  ∀ (ra : Byte) (s : State),
    encode (.call ra) = [0x50#8, ra] ∧ s.pushAddr = s.reg 7 - 1#8 ∧
    (∀ h : ra.toNat < 8, ∃ t, exec (.call ra) s = .next t ∧
      (∀ r, t.reg r = if r = 7 then s.reg 7 - 1#8 else s.reg r) ∧
      (∀ x, t.readMem x = if x = s.pushAddr then s.pc + 2#8 else s.readMem x) ∧ t.pc = t.reg ⟨ra.toNat, h⟩ ∧
      t.flags = s.flags ∧ t.run = s.run ∧ t.output = s.output ∧ t.diagnostics = s.diagnostics ∧ t.policy = s.policy) ∧
    (8 ≤ ra.toNat →
      exec (.call ra) s = .next { s with run := .faulted (.illegalRegisterIndex .a ra 0x50#8 s.pc) })

/-- 44_subroutine.md R132: one increment of SP (conflict C4), modulo 256 (D3). -/
def Obligations.RetPopsProgramCounter : Prop :=
  encode .ret = [0x11#8] ∧
  ∀ s : State, ∃ t, exec .ret s = .next t ∧ t.pc = s.readMem (s.reg 7) ∧
    (∀ r, t.reg r = if r = 7 then s.reg 7 + 1#8 else s.reg r) ∧
    t.flags = s.flags ∧ t.run = s.run ∧ (∀ x, t.readMem x = s.readMem x) ∧ t.output = s.output ∧
    t.diagnostics = s.diagnostics ∧ t.policy = s.policy

/-- 44_subroutine.md R130: CALL then RET returns to the byte after the CALL with every register, SP included, and the
flags as before. -/
def Obligations.CallRetRoundTrip : Prop :=
  ∀ (ra : Byte) (s : State), ra.toNat < 8 →
    ∃ t u, exec (.call ra) s = .next t ∧ exec .ret t = .next u ∧ u.pc = s.pc + 2#8 ∧ (∀ r, u.reg r = s.reg r) ∧
      u.flags = s.flags

/-- 44_subroutine.md R132: PUSH Rr then RET is a jump to `x[r]` with SP unchanged overall, for `r` other than 7. -/
def Obligations.PushRetIsIndirectJump : Prop :=
  ∀ (ra : Byte) (s : State) (h : ra.toNat < 7),
    ∃ t u, exec (.push ra) s = .next t ∧ exec .ret t = .next u ∧
      u.pc = s.reg ⟨ra.toNat, Nat.lt_succ_of_lt h⟩ ∧ (∀ r, u.reg r = s.reg r)

/-! ## Jumps -/

/-- 45_jumps.md R140, R141. -/
def Obligations.JmpSetsProgramCounter : Prop :=
  ∀ (ra : Byte) (s : State),
    encode (.jmp ra) = [0x54#8, ra] ∧
    (∀ h : ra.toNat < 8, ∃ t, exec (.jmp ra) s = .next t ∧ t.pc = s.reg ⟨ra.toNat, h⟩ ∧
      (∀ r, t.reg r = s.reg r) ∧ t.flags = s.flags ∧ t.run = s.run ∧ (∀ x, t.readMem x = s.readMem x) ∧
      t.output = s.output ∧ t.diagnostics = s.diagnostics ∧ t.policy = s.policy) ∧
    (8 ≤ ra.toNat →
      exec (.jmp ra) s = .next { s with run := .faulted (.illegalRegisterIndex .a ra 0x54#8 s.pc) })

/-- 45_jumps.md R142: the field is checked whether or not the jump would be taken. -/
def Obligations.JeqJumpsWhenEqual : Prop :=
  ∀ (ra : Byte) (s : State),
    encode (.jeq ra) = [0x55#8, ra] ∧
    (∀ h : ra.toNat < 8, ∃ t, exec (.jeq ra) s = .next t ∧
      (s.flags.equal = true → t.pc = s.reg ⟨ra.toNat, h⟩) ∧ (s.flags.equal = false → t.pc = s.pc + 2#8) ∧
      (∀ r, t.reg r = s.reg r) ∧ t.flags = s.flags ∧ t.run = s.run ∧ (∀ x, t.readMem x = s.readMem x) ∧
      t.output = s.output ∧ t.diagnostics = s.diagnostics ∧ t.policy = s.policy) ∧
    (8 ≤ ra.toNat →
      exec (.jeq ra) s = .next { s with run := .faulted (.illegalRegisterIndex .a ra 0x55#8 s.pc) })

/-- 45_jumps.md R143: "not equal" is the Equal flag being false; Less and Greater may hold anything. -/
def Obligations.JneJumpsWhenNotEqual : Prop :=
  ∀ (ra : Byte) (s : State),
    encode (.jne ra) = [0x56#8, ra] ∧
    (∀ h : ra.toNat < 8, ∃ t, exec (.jne ra) s = .next t ∧
      (s.flags.equal = false → t.pc = s.reg ⟨ra.toNat, h⟩) ∧ (s.flags.equal = true → t.pc = s.pc + 2#8) ∧
      (∀ r, t.reg r = s.reg r) ∧ t.flags = s.flags ∧ t.run = s.run ∧ (∀ x, t.readMem x = s.readMem x) ∧
      t.output = s.output ∧ t.diagnostics = s.diagnostics ∧ t.policy = s.policy) ∧
    (8 ≤ ra.toNat →
      exec (.jne ra) s = .next { s with run := .faulted (.illegalRegisterIndex .a ra 0x56#8 s.pc) })

/-! ## Faults -/

/-- 60_exceptions.md R153, R158 (D5, D15): whatever the instruction, an illegal register field raises
IllegalRegisterIndex for the first illegal field and nothing else changes; an instruction has one exactly when it is not
well formed. -/
def Obligations.IllegalRegisterFieldFaults : Prop :=
  ∀ (i : Instr) (s : State),
    (∀ f v, i.firstIllegalField = some (f, v) →
      exec i s = .next { s with run := .faulted (.illegalRegisterIndex f v i.opcode s.pc) } ∧ 8 ≤ v.toNat) ∧
    (i.firstIllegalField = none ↔ i.wellFormed = true)

/-- 60_exceptions.md R151 (D4): policy `fault`. The operand bytes after the opcode do not matter. -/
def Obligations.UnknownOpcodeFaults : Prop :=
  ∀ s : State, s.run = .running → s.policy = .fault →
    s.readMem s.pc ∉ [0x01#8, 0x82#8, 0x47#8, 0xA0#8, 0xA2#8, 0x45#8, 0x46#8, 0x50#8, 0x11#8, 0xA7#8, 0x54#8, 0x55#8,
      0x56#8] →
    step s = .next { s with run := .faulted (.illegalOpcode (s.readMem s.pc) s.pc) }

/-- 60_exceptions.md R152 (D4, D21): policy `spin`. `k` steps change nothing but emit `k` identical diagnostics, for
every `k`: the run never ends. -/
def Obligations.UnknownOpcodeSpinsForever : Prop :=
  ∀ (s : State) (k : Nat), s.run = .running → s.policy = .spin →
    s.readMem s.pc ∉ [0x01#8, 0x82#8, 0x47#8, 0xA0#8, 0xA2#8, 0x45#8, 0x46#8, 0x50#8, 0x11#8, 0xA7#8, 0x54#8, 0x55#8,
      0x56#8] →
    runSteps k s =
      .next { s with diagnostics := s.diagnostics ++ List.replicate k ⟨s.readMem s.pc, s.pc⟩ }

/-- 60_exceptions.md R159 (D6): a step that enters Faulted changes the run state and nothing else. -/
def Obligations.FaultEntryIsPrecise : Prop :=
  ∀ (s t : State) (c : Fault), s.run = .running → step s = .next t → t.run = .faulted c →
    t = { s with run := .faulted c }

/-- 60_exceptions.md R150, R156 (D4, D5): a Running machine's step faults exactly when the opcode is unknown and the
policy is `fault`, or the opcode is known and a register field it uses is illegal. -/
def Obligations.StepFaultsExactlyWhen : Prop :=
  ∀ s t : State, s.run = .running → step s = .next t →
    (t.goneWrong = true ↔
      (s.fetch.op ∉ knownOpcodes ∧ s.policy = .fault) ∨
      (∃ i, decode s.fetch = .ok i ∧ i.wellFormed = false))

/-- 41_machine_control_and_data.md R100, 10_state.md R21: a Running machine's step reaches Halted exactly when the byte at
`pc` is the HLT opcode. -/
def Obligations.HaltedReachedOnlyByHlt : Prop :=
  ∀ s t : State, s.run = .running → step s = .next t → (t.endedNormally = true ↔ s.readMem s.pc = 0x01#8)

/-! ## Whole-machine rules: who may write what -/

/-- 10_state.md R19: only CMP writes flags. -/
def Obligations.FlagsWrittenOnlyByCmp : Prop :=
  ∀ s t : State, step s = .next t → t.flags ≠ s.flags → s.run = .running ∧ s.readMem s.pc = 0xA7#8

/-- 10_state.md R20: once exactly one flag is true it stays so under every step, and every CMP with legal fields makes it
so from any flags. -/
def Obligations.OneFlagTrueIsKept : Prop :=
  ∀ s t : State, step s = .next t →
    (s.flags.oneHot = true → t.flags.oneHot = true) ∧
    (s.run = .running → s.fetch.op = 0xA7#8 → s.fetch.a.toNat < 8 → s.fetch.b.toNat < 8 → t.flags.oneHot = true)

/-- 10_state.md R11, R13: a register changes only as the destination of LDI, ADD, MUL or POP, or as SP in PUSH, POP, CALL
or RET. -/
def Obligations.RegistersWrittenOnlyByNamedWriters : Prop :=
  ∀ (s t : State) (r : RegIdx), step s = .next t → t.reg r ≠ s.reg r →
    (s.fetch.op ∈ [0x82#8, 0xA0#8, 0xA2#8, 0x46#8] ∧ s.fetch.a.toNat = r.val) ∨
    (r = 7 ∧ s.fetch.op ∈ [0x45#8, 0x46#8, 0x50#8, 0x11#8])

/-- 20_memory.md R42: memory changes only by PUSH and CALL, only at `pushAddr`, which is SP - 1. -/
def Obligations.MemoryWrittenOnlyByPushAndCall : Prop :=
  ∀ (s t : State) (x : Byte), step s = .next t → t.readMem x ≠ s.readMem x →
    s.run = .running ∧ s.readMem s.pc ∈ [0x45#8, 0x50#8] ∧ x = s.pushAddr ∧ s.pushAddr = s.reg 7 - 1#8

/-- 40_fetch_decode_execute.md R94, 10_state.md R27: the output sequence only ever grows by PRN's one register value. -/
def Obligations.OutputGrowsOnlyByPrn : Prop :=
  ∀ s t : State, step s = .next t →
    t.output = s.output ∨
    (s.run = .running ∧ s.readMem s.pc = 0x47#8 ∧
      ∃ h : s.fetch.a.toNat < 8, t.output = s.output ++ [s.reg ⟨s.fetch.a.toNat, h⟩])

/-- 60_exceptions.md R152 and 00_scope.md R5 (D4, D21; log 4): no step changes the policy, and a diagnostic is emitted
only under `spin`, on an unknown opcode, by a step that changes nothing else. -/
def Obligations.DiagnosticsOnlyUnderSpin : Prop :=
  ∀ s t : State, step s = .next t →
    t.policy = s.policy ∧
    (t.diagnostics = s.diagnostics ∨
      (s.run = .running ∧ s.policy = .spin ∧ s.fetch.op ∉ knownOpcodes ∧
        t = { s with diagnostics := s.diagnostics ++ [⟨s.fetch.op, s.pc⟩] }))

/-! ## Memory -/

/-- The model's canonical form (log 1): two memories in canonical form that read alike at all 256 addresses are equal. -/
def Obligations.CanonicalMemoryIsUnique : Prop :=
  ∀ m n : Memory, Memory.wf m = true → Memory.wf n = true → (∀ x : Byte, Memory.read m x = Memory.read n x) → m = n

/-- 20_memory.md R55, 70_reset_and_hazards.md R192 (addresses modulo 256: D2, D3; what is stored and where CALL goes when
`ra = 7`: D11, log 9): the byte that PUSH or CALL stores is what the next step fetches wherever its window reaches it, and
every other byte of that window is as it was. -/
def Obligations.NextFetchSeesPushedByte : Prop :=
  ∀ (ra : Byte) (s : State) (h : ra.toNat < 8),
    (∃ t, exec (.push ra) s = .next t ∧ t.pc = s.pc + 2#8 ∧
      (t.fetch.op = if t.pc = s.pushAddr then t.reg ⟨ra.toNat, h⟩ else s.readMem t.pc) ∧
      (t.fetch.a = if t.pc + 1#8 = s.pushAddr then t.reg ⟨ra.toNat, h⟩ else s.readMem (t.pc + 1#8)) ∧
      (t.fetch.b = if t.pc + 2#8 = s.pushAddr then t.reg ⟨ra.toNat, h⟩ else s.readMem (t.pc + 2#8))) ∧
    (∃ t, exec (.call ra) s = .next t ∧ t.pc = t.reg ⟨ra.toNat, h⟩ ∧
      (t.fetch.op = if t.pc = s.pushAddr then s.pc + 2#8 else s.readMem t.pc) ∧
      (t.fetch.a = if t.pc + 1#8 = s.pushAddr then s.pc + 2#8 else s.readMem (t.pc + 1#8)) ∧
      (t.fetch.b = if t.pc + 2#8 = s.pushAddr then s.pc + 2#8 else s.readMem (t.pc + 2#8)))

/-- 20_memory.md R42, R47, 40_fetch_decode_execute.md R93 (the interface is the spec's decision D13), R81 (a stopped machine
issues none: D16). The transactions are the model's own function `busEvents` (DESIGN CHOICE, log 16). A Running machine's
step issues the three window reads and then exactly the data access R42's table gives: PUSH one write at SP - 1 of `ra` as
it is after SP is lowered (D11); POP one read at SP, into `ra`; CALL one write at SP - 1 of `pc + 2`; RET one read at SP,
into `pc`; every other opcode, known or not, and an illegal register field (R153, D5), none. Every read carries the byte
memory held, and the transactions account for all of memory afterwards. -/
def Obligations.BusTransactionsAccountForMemory : Prop :=
  ∀ s t : State, step s = .next t →
    t.mem = s.busEvents.foldl BusEvent.apply s.mem ∧
    (∀ x v, BusEvent.read x v ∈ s.busEvents → v = s.readMem x) ∧
    (s.run = .running → ∃ d : List BusEvent, d.length ≤ 1 ∧
      s.busEvents = [.read s.pc (s.readMem s.pc), .read (s.pc + 1#8) (s.readMem (s.pc + 1#8)),
        .read (s.pc + 2#8) (s.readMem (s.pc + 2#8))] ++ d ∧
      (s.readMem s.pc = 0x45#8 → ∀ h : (s.readMem (s.pc + 1#8)).toNat < 8,
        d = [.write (s.reg 7 - 1#8) (t.reg ⟨(s.readMem (s.pc + 1#8)).toNat, h⟩)]) ∧
      (s.readMem s.pc = 0x46#8 → ∀ h : (s.readMem (s.pc + 1#8)).toNat < 8, ∃ v, d = [.read (s.reg 7) v] ∧
        ((s.readMem (s.pc + 1#8)).toNat ≠ 7 → t.reg ⟨(s.readMem (s.pc + 1#8)).toNat, h⟩ = v) ∧
        ((s.readMem (s.pc + 1#8)).toNat = 7 → t.reg 7 = v + 1#8)) ∧
      (s.readMem s.pc = 0x50#8 → (s.readMem (s.pc + 1#8)).toNat < 8 →
        d = [.write (s.reg 7 - 1#8) (s.pc + 2#8)]) ∧
      (s.readMem s.pc = 0x11#8 → d = [.read (s.reg 7) t.pc]) ∧
      (s.readMem s.pc ∈ [0x45#8, 0x46#8, 0x50#8] → 8 ≤ (s.readMem (s.pc + 1#8)).toNat → d = []) ∧
      (s.readMem s.pc ∉ [0x45#8, 0x46#8, 0x50#8, 0x11#8] → d = [])) ∧
    (s.run ≠ .running → s.busEvents = [])

/-! ## Reset and boot -/

/-- 10_state.md R28, R29: `pc`, run state and SP after reset, where execution begins, and where the first push goes. -/
def Obligations.ResetValuesOfPcRunAndStackPointer : Prop :=
  State.reset.pc = 0x00#8 ∧ State.reset.run = .running ∧ State.reset.reg 7 = 0xF4#8 ∧
    State.reset.fetch.op = State.reset.readMem 0x00#8 ∧ State.reset.pushAddr = 0xF3#8

/-- 70_reset_and_hazards.md R180 (D20; log 12 for the policy and the diagnostics): reset from any state. -/
def Obligations.ResetEventFromAnyState : Prop :=
  ∀ (v : ResetValues) (s : State),
    (s.applyReset v).pc = 0x00#8 ∧ (s.applyReset v).run = .running ∧ (s.applyReset v).reg 7 = 0xF4#8 ∧
    (s.applyReset v).output = [] ∧ (∀ r : Fin 7, (s.applyReset v).reg r.castSucc = v.regs[r]) ∧
    (s.applyReset v).flags = v.flags ∧ (∀ x, (s.applyReset v).readMem x = s.readMem x) ∧
    (s.applyReset v).policy = s.policy ∧ (s.applyReset v).diagnostics = s.diagnostics

/-- 10_state.md R32, 70_reset_and_hazards.md R181 to R183 (D9, D10): an image of at most 256 bytes is launched, its bytes
at addresses 0 upward and INIT_MEM elsewhere; a longer one is refused. `State.launch` is the model's form of the load
(DESIGN CHOICE, log 11). The last clause, that the launched state meets the invariant, is no rule of the spec: the invariant
asks for memory in the model's canonical form (DESIGN CHOICE, log 1). -/
def Obligations.LaunchPlacesImage : Prop :=
  ∀ (p : LaunchParams) (image : List Byte),
    (image.length ≤ 256 → ∃ s, State.launch p image = some s ∧
      (∀ x : Byte, s.readMem x = image.getD x.toNat (p.mem.toList.getD x.toNat 0#8)) ∧
      s.pc = 0x00#8 ∧ s.run = .running ∧ s.reg 7 = 0xF4#8 ∧ (∀ r : Fin 7, s.reg r.castSucc = p.reset.regs[r]) ∧
      s.flags = p.reset.flags ∧ s.output = [] ∧ s.policy = p.policy ∧ s.inv = true) ∧
    (256 < image.length → State.launch p image = none)

/-! ## Headline results -/

/-- The machine's invariant is kept by every step from every state that meets it: memory stays in canonical form, which is
the model's own choice (DESIGN CHOICE, log 1) and no rule of the spec; a Halted machine has the HLT opcode just before `pc` (R90); a Faulted machine's record describes the bytes at its unchanged
`pc` (R150, R159); every diagnostic is about an unknown opcode (R152). -/
def Obligations.EveryStepKeepsInvariant : Prop :=
  ∀ s t : State, s.inv = true → step s = .next t → t.inv = true

/-- The reset state meets the invariant. Beside the run state (R28) this rests on two choices of the model: reset memory in
canonical form (DESIGN CHOICE, log 1) and no diagnostics at reset (DESIGN CHOICE, log 12). -/
def Obligations.ResetMeetsInvariant : Prop :=
  State.reset.inv = true

/-- 10_state.md R20: no program can observe Less or Greater. Two runs that start alike but for those two flags agree, for
any number of steps, on everything else. -/
def Obligations.LessAndGreaterAreUnobservable : Prop :=
  ∀ (k : Nat) (s : State) (l g : Bool), ∃ t u,
    runSteps k s = .next t ∧ runSteps k { s with flags := ⟨s.flags.equal, l, g⟩ } = .next u ∧
    u = { t with flags := ⟨t.flags.equal, u.flags.less, u.flags.greater⟩ }

/-- 60_exceptions.md R151, R152, R159 (D4, D6; the policy is a field of State: log 4): after any number of steps the two
policies agree on every register, flag, memory byte, `pc` and output value and on whether Halted is reached. Their run states
are equal too, or the byte at `pc` is an unknown opcode, on which `fault` has stopped in Faulted(IllegalOpcode) and `spin` is
still Running. Diagnostics are not compared. -/
def Obligations.PoliciesDifferOnlyInFaultingOrSpinning : Prop :=
  ∀ (k : Nat) (s : State) (p : UnknownOpcodePolicy), ∃ t u,
    runSteps k s = .next t ∧ runSteps k { s with policy := p } = .next u ∧
    t.regs = u.regs ∧ t.flags = u.flags ∧ t.mem = u.mem ∧ t.pc = u.pc ∧ t.output = u.output ∧
    t.endedNormally = u.endedNormally ∧
    (t.run = u.run ∨
      (t.readMem t.pc ∉ knownOpcodes ∧
        ((t.policy = .fault ∧ t.run = .faulted (.illegalOpcode (t.readMem t.pc) t.pc) ∧
          u.policy = .spin ∧ u.run = .running) ∨
         (t.policy = .spin ∧ t.run = .running ∧
          u.policy = .fault ∧ u.run = .faulted (.illegalOpcode (t.readMem t.pc) t.pc)))))
end

