-- ==== Sys2Proof/Laws/Decode.lean ====
section
/-! SUPPORT. What the decoder can answer. -/

namespace Sys2Proof

/-- Everything `decode` can do: one case per row of 30_encoding.md R67, and the unknown opcodes. -/
theorem decode_cases (w : Window) :
    (w.op = 0x01#8 ∧ decode w = .ok .hlt) ∨
    (w.op = 0x82#8 ∧ decode w = .ok (.ldi w.a w.b)) ∨
    (w.op = 0x47#8 ∧ decode w = .ok (.prn w.a)) ∨
    (w.op = 0xA0#8 ∧ decode w = .ok (.add w.a w.b)) ∨
    (w.op = 0xA2#8 ∧ decode w = .ok (.mul w.a w.b)) ∨
    (w.op = 0x45#8 ∧ decode w = .ok (.push w.a)) ∨
    (w.op = 0x46#8 ∧ decode w = .ok (.pop w.a)) ∨
    (w.op = 0x50#8 ∧ decode w = .ok (.call w.a)) ∨
    (w.op = 0x11#8 ∧ decode w = .ok .ret) ∨
    (w.op = 0xA7#8 ∧ decode w = .ok (.cmp w.a w.b)) ∨
    (w.op = 0x54#8 ∧ decode w = .ok (.jmp w.a)) ∨
    (w.op = 0x55#8 ∧ decode w = .ok (.jeq w.a)) ∨
    (w.op = 0x56#8 ∧ decode w = .ok (.jne w.a)) ∨
    (w.op ∉ knownOpcodes ∧ decode w = .error (.unknownOpcode w.op)) := by
  obtain ⟨op, a, b⟩ := w
  by_cases h : op ∈ knownOpcodes
  · simp only [knownOpcodes, List.mem_cons, List.not_mem_nil, or_false] at h
    rcases h with rfl | rfl | rfl | rfl | rfl | rfl | rfl | rfl | rfl | rfl | rfl | rfl | rfl <;> simp [decode]
  · have h' := h
    simp only [knownOpcodes, List.mem_cons, List.not_mem_nil, or_false, not_or] at h'
    have hd : decode ⟨op, a, b⟩ = .error (.unknownOpcode op) := by simp [decode, h']
    simp [h, hd]

/-- A decoded instruction carries the window's opcode byte. -/
theorem opcode_of_decode {w : Window} {i : Instr} (h : decode w = .ok i) : i.opcode = w.op := by
  rcases decode_cases w with ⟨ho, hd⟩ | ⟨ho, hd⟩ | ⟨ho, hd⟩ | ⟨ho, hd⟩ | ⟨ho, hd⟩ | ⟨ho, hd⟩ | ⟨ho, hd⟩ | ⟨ho, hd⟩ |
    ⟨ho, hd⟩ | ⟨ho, hd⟩ | ⟨ho, hd⟩ | ⟨ho, hd⟩ | ⟨ho, hd⟩ | ⟨_, hd⟩ <;> rw [hd] at h <;> cases h <;> simp [Instr.opcode, ho]

theorem legalField_iff (f : Byte) : legalField f = true ↔ f.toNat < 8 := by simp [legalField]

end Sys2Proof
end

