-- ==== Sys2Proof/Laws/State.lean ====
section
/-! SUPPORT. What each update of the state leaves in each field, and the normal form of the shared operations: a simp
call turns every operation into `setReg`, `setPc`, `writeMem`, `out`, `setFlags`, `setRun` and `diagnose`. -/

namespace Sys2Proof.Machine

section Fields

variable (s : State) (r q : RegIdx) (a b v : Byte) (f : Flags) (d : Diagnostic) (x : RunState) (n : Nat)

@[simp] theorem State.setReg_pc : (s.setReg r v).pc = s.pc := rfl
@[simp] theorem State.setReg_flags : (s.setReg r v).flags = s.flags := rfl
@[simp] theorem State.setReg_run : (s.setReg r v).run = s.run := rfl
@[simp] theorem State.setReg_mem : (s.setReg r v).mem = s.mem := rfl
@[simp] theorem State.setReg_output : (s.setReg r v).output = s.output := rfl
@[simp] theorem State.setReg_diagnostics : (s.setReg r v).diagnostics = s.diagnostics := rfl
@[simp] theorem State.setReg_policy : (s.setReg r v).policy = s.policy := rfl
@[simp] theorem State.setReg_readMem : (s.setReg r v).readMem b = s.readMem b := rfl

@[simp] theorem State.setPc_regs : (s.setPc v).regs = s.regs := rfl
@[simp] theorem State.setPc_pc : (s.setPc v).pc = v := rfl
@[simp] theorem State.setPc_flags : (s.setPc v).flags = s.flags := rfl
@[simp] theorem State.setPc_run : (s.setPc v).run = s.run := rfl
@[simp] theorem State.setPc_mem : (s.setPc v).mem = s.mem := rfl
@[simp] theorem State.setPc_output : (s.setPc v).output = s.output := rfl
@[simp] theorem State.setPc_diagnostics : (s.setPc v).diagnostics = s.diagnostics := rfl
@[simp] theorem State.setPc_policy : (s.setPc v).policy = s.policy := rfl
@[simp] theorem State.setPc_reg : (s.setPc v).reg r = s.reg r := rfl
@[simp] theorem State.setPc_readMem : (s.setPc v).readMem b = s.readMem b := rfl

@[simp] theorem State.writeMem_regs : (s.writeMem a v).regs = s.regs := rfl
@[simp] theorem State.writeMem_pc : (s.writeMem a v).pc = s.pc := rfl
@[simp] theorem State.writeMem_flags : (s.writeMem a v).flags = s.flags := rfl
@[simp] theorem State.writeMem_run : (s.writeMem a v).run = s.run := rfl
@[simp] theorem State.writeMem_mem : (s.writeMem a v).mem = Memory.write s.mem a v := rfl
@[simp] theorem State.writeMem_output : (s.writeMem a v).output = s.output := rfl
@[simp] theorem State.writeMem_diagnostics : (s.writeMem a v).diagnostics = s.diagnostics := rfl
@[simp] theorem State.writeMem_policy : (s.writeMem a v).policy = s.policy := rfl
@[simp] theorem State.writeMem_reg : (s.writeMem a v).reg r = s.reg r := rfl

@[simp] theorem State.out_regs : (s.out v).regs = s.regs := rfl
@[simp] theorem State.out_pc : (s.out v).pc = s.pc := rfl
@[simp] theorem State.out_flags : (s.out v).flags = s.flags := rfl
@[simp] theorem State.out_run : (s.out v).run = s.run := rfl
@[simp] theorem State.out_mem : (s.out v).mem = s.mem := rfl
@[simp] theorem State.out_output : (s.out v).output = s.output ++ [v] := rfl
@[simp] theorem State.out_diagnostics : (s.out v).diagnostics = s.diagnostics := rfl
@[simp] theorem State.out_policy : (s.out v).policy = s.policy := rfl
@[simp] theorem State.out_reg : (s.out v).reg r = s.reg r := rfl
@[simp] theorem State.out_readMem : (s.out v).readMem b = s.readMem b := rfl

@[simp] theorem State.setFlags_regs : (s.setFlags f).regs = s.regs := rfl
@[simp] theorem State.setFlags_pc : (s.setFlags f).pc = s.pc := rfl
@[simp] theorem State.setFlags_flags : (s.setFlags f).flags = f := rfl
@[simp] theorem State.setFlags_run : (s.setFlags f).run = s.run := rfl
@[simp] theorem State.setFlags_mem : (s.setFlags f).mem = s.mem := rfl
@[simp] theorem State.setFlags_output : (s.setFlags f).output = s.output := rfl
@[simp] theorem State.setFlags_diagnostics : (s.setFlags f).diagnostics = s.diagnostics := rfl
@[simp] theorem State.setFlags_policy : (s.setFlags f).policy = s.policy := rfl
@[simp] theorem State.setFlags_reg : (s.setFlags f).reg r = s.reg r := rfl
@[simp] theorem State.setFlags_readMem : (s.setFlags f).readMem b = s.readMem b := rfl

@[simp] theorem State.setRun_regs : (s.setRun x).regs = s.regs := rfl
@[simp] theorem State.setRun_pc : (s.setRun x).pc = s.pc := rfl
@[simp] theorem State.setRun_flags : (s.setRun x).flags = s.flags := rfl
@[simp] theorem State.setRun_run : (s.setRun x).run = x := rfl
@[simp] theorem State.setRun_mem : (s.setRun x).mem = s.mem := rfl
@[simp] theorem State.setRun_output : (s.setRun x).output = s.output := rfl
@[simp] theorem State.setRun_diagnostics : (s.setRun x).diagnostics = s.diagnostics := rfl
@[simp] theorem State.setRun_policy : (s.setRun x).policy = s.policy := rfl
@[simp] theorem State.setRun_reg : (s.setRun x).reg r = s.reg r := rfl
@[simp] theorem State.setRun_readMem : (s.setRun x).readMem b = s.readMem b := rfl

@[simp] theorem State.diagnose_regs : (s.diagnose d).regs = s.regs := rfl
@[simp] theorem State.diagnose_pc : (s.diagnose d).pc = s.pc := rfl
@[simp] theorem State.diagnose_flags : (s.diagnose d).flags = s.flags := rfl
@[simp] theorem State.diagnose_run : (s.diagnose d).run = s.run := rfl
@[simp] theorem State.diagnose_mem : (s.diagnose d).mem = s.mem := rfl
@[simp] theorem State.diagnose_output : (s.diagnose d).output = s.output := rfl
@[simp] theorem State.diagnose_diagnostics : (s.diagnose d).diagnostics = s.diagnostics ++ [d] := rfl
@[simp] theorem State.diagnose_policy : (s.diagnose d).policy = s.policy := rfl
@[simp] theorem State.diagnose_reg : (s.diagnose d).reg r = s.reg r := rfl
@[simp] theorem State.diagnose_readMem : (s.diagnose d).readMem b = s.readMem b := rfl

@[simp] theorem State.setReg_reg : (s.setReg r v).reg q = if q = r then v else s.reg q := by
  simp only [State.reg, State.setReg, Fin.getElem_fin, Vector.getElem_set, Fin.ext_iff, eq_comm]

theorem State.setReg_reg_same : (s.setReg r v).reg r = v := by simp

theorem State.setReg_reg_of_ne (h : q ≠ r) : (s.setReg r v).reg q = s.reg q := by simp [h]

@[simp] theorem State.setRun_fetch : (s.setRun x).fetch = s.fetch := rfl

/-! Normal forms. -/

@[simp] theorem State.sp_eq : s.sp = s.reg 7 := rfl
@[simp] theorem State.setSp_eq : s.setSp v = s.setReg 7 v := rfl

theorem addrPlus_eq : addrPlus a n = a + BitVec.ofNat 8 n := by
  apply BitVec.eq_of_toNat_eq
  simp [addrPlus]

@[simp] theorem State.pushAddr_eq : s.pushAddr = s.reg 7 - 1#8 := by
  apply BitVec.eq_of_toNat_eq
  simp [State.pushAddr, BitVec.toNat_sub]
  omega

@[simp] theorem State.advancePc_eq : s.advancePc n = s.setPc (s.pc + BitVec.ofNat 8 n) := by
  simp [State.advancePc, addrPlus_eq]

@[simp] theorem State.decSp_eq : s.decSp = s.setReg 7 (s.reg 7 - 1#8) := by simp [State.decSp]

@[simp] theorem State.incSp_eq : s.incSp = s.setReg 7 (s.reg 7 + 1#8) := by simp [State.incSp, addrPlus_eq]

@[simp] theorem State.push_eq : s.push v = (s.setReg 7 (s.reg 7 - 1#8)).writeMem (s.reg 7 - 1#8) v := by
  simp [State.push]

@[simp] theorem State.branch_true : s.branch true v = s.setPc v := rfl
@[simp] theorem State.branch_false : s.branch false v = s.setPc (s.pc + 2#8) := by simp [State.branch]

theorem State.fetch_op : s.fetch.op = s.readMem s.pc := rfl
theorem State.fetch_a : s.fetch.a = s.readMem (s.pc + 1#8) := by simp [State.fetch, addrPlus_eq]
theorem State.fetch_b : s.fetch.b = s.readMem (s.pc + 2#8) := by simp [State.fetch, addrPlus_eq]

end Fields

/-- Two states are equal when all their fields are, the registers read one by one. -/
theorem State.ext_reg {s t : State} (hr : ∀ r, s.reg r = t.reg r) (hpc : s.pc = t.pc) (hf : s.flags = t.flags)
    (hrun : s.run = t.run) (hm : s.mem = t.mem) (ho : s.output = t.output) (hd : s.diagnostics = t.diagnostics)
    (hp : s.policy = t.policy) : s = t := by
  obtain ⟨sr, _, _, _, _, _, _, _⟩ := s
  obtain ⟨tr, _, _, _, _, _, _, _⟩ := t
  have hregs : sr = tr := Vector.ext fun i hi => hr ⟨i, hi⟩
  simp_all

end Sys2Proof.Machine
end

