-- ==== Sys2Proof/Laws/Memory.lean ====
section
/-! SUPPORT. The laws of memory: a read after a write, and that every operation keeps the canonical form. The first law
holds of every list, canonical or not, so no frame needs the invariant. -/

namespace Sys2Proof.Machine

theorem Memory.lookup_eraseKey (m : Memory) (k j : Nat) :
    Memory.lookup (Memory.eraseKey m k) j = if j = k then Memory.unlisted else Memory.lookup m j := by
  induction m with
  | nil => simp [Memory.eraseKey, Memory.lookup]
  | cons c rest ih =>
    obtain ⟨key, v⟩ := c
    by_cases hk : key = k <;> by_cases hj : j = k
    · simp [Memory.eraseKey, hk, hj] at ih ⊢
      exact ih
    · simp [Memory.eraseKey, Memory.lookup, ih, hk, hj, Ne.symm hj]
    · subst hj
      simpa [Memory.eraseKey, Memory.lookup, hk] using ih
    · simp [Memory.eraseKey, Memory.lookup, ih, hk, hj]

theorem Memory.lookup_insertCell (c : Host.Cell) (m : Memory) (h : ∀ d ∈ m, d.1 ≠ c.1) (j : Nat) :
    Memory.lookup (Memory.insertCell c m) j = if j = c.1 then c.2 else Memory.lookup m j := by
  induction m with
  | nil => simp [Memory.insertCell, Memory.lookup, eq_comm]
  | cons d rest ih =>
    have hd : d.1 ≠ c.1 := h d (by simp)
    have ih' := ih (fun e he => h e (by simp [he]))
    by_cases hlt : c.1 < d.1
    · simp [Memory.insertCell, hlt, Memory.lookup, eq_comm]
    · by_cases hj : j = c.1
      · subst hj
        simp [Memory.insertCell, hlt, Memory.lookup, ih', hd]
      · simp [Memory.insertCell, hlt, Memory.lookup, ih', hj]

theorem Memory.mem_of_mem_eraseKey {m : Memory} {k : Nat} {d : Host.Cell} (h : d ∈ Memory.eraseKey m k) :
    d ∈ m ∧ d.1 ≠ k := by
  induction m with
  | nil => simp [Memory.eraseKey] at h
  | cons c rest ih =>
    obtain ⟨key, v⟩ := c
    by_cases hk : key = k
    · have := ih (by simpa [Memory.eraseKey, hk] using h)
      exact ⟨by simp [this.1], this.2⟩
    · rcases (by simpa [Memory.eraseKey, hk] using h : d = (key, v) ∨ d ∈ Memory.eraseKey rest k) with rfl | h'
      · exact ⟨by simp, hk⟩
      · exact ⟨by simp [(ih h').1], (ih h').2⟩

/-- A read after a write gives the value written at that address and what stood there at every other
(20_memory.md R41, R51). -/
@[simp] theorem Memory.read_write (m : Memory) (a v b : Byte) :
    Memory.read (Memory.write m a v) b = if b = a then v else Memory.read m b := by
  have key : b.toNat = a.toNat ↔ b = a := BitVec.toNat_inj
  unfold Memory.read Memory.write
  split
  · next hv => simp only [Memory.lookup_eraseKey, key, hv]
  · rw [Memory.lookup_insertCell _ _ (fun d hd => (Memory.mem_of_mem_eraseKey hd).2), Memory.lookup_eraseKey]
    simp only [key]
    split <;> rfl

@[simp] theorem State.writeMem_readMem (s : State) (a v b : Byte) :
    (s.writeMem a v).readMem b = if b = a then v else s.readMem b := by
  simp [State.writeMem, State.readMem]

/-- Storing a window where the next step fetches makes it the window fetched: the three addresses differ. -/
@[simp] theorem State.storeWindow_fetch (s : State) (w : Window) : (s.storeWindow w).fetch = w := by
  have h1 : s.pc ≠ s.pc + 1#8 := by bv_omega
  have h2 : s.pc ≠ s.pc + 2#8 := by bv_omega
  have h3 : s.pc + 1#8 ≠ s.pc + 2#8 := by bv_omega
  simp [State.fetch, State.storeWindow, addrPlus_eq, h1, h2, h3]

/-! ## The canonical form -/

theorem Memory.wf_cons (k : Nat) (v : Byte) (rest : Memory) :
    Memory.wf ((k, v) :: rest) = true ↔
      k < 256 ∧ v ≠ Memory.unlisted ∧ (∀ c ∈ rest, k < c.1) ∧ Memory.wf rest = true := by
  simp only [Memory.wf, Bool.and_eq_true, decide_eq_true_eq, List.all_eq_true, and_assoc]
  rfl

theorem Memory.wf_eraseKey {m : Memory} (h : Memory.wf m = true) (k : Nat) :
    Memory.wf (Memory.eraseKey m k) = true := by
  induction m with
  | nil => rfl
  | cons c rest ih =>
    obtain ⟨key, v⟩ := c
    obtain ⟨h1, h2, h3, h4⟩ := (Memory.wf_cons ..).mp h
    have ih' := ih h4
    by_cases hk : key = k
    · simpa [Memory.eraseKey, hk] using ih'
    · have : Memory.eraseKey ((key, v) :: rest) k = (key, v) :: Memory.eraseKey rest k := by
        simp [Memory.eraseKey, hk]
      rw [this, Memory.wf_cons]
      exact ⟨h1, h2, fun c hc => h3 c (Memory.mem_of_mem_eraseKey hc).1, ih'⟩

theorem Memory.mem_insertCell {c d : Host.Cell} {m : Memory} :
    d ∈ Memory.insertCell c m ↔ d = c ∨ d ∈ m := by
  induction m with
  | nil => simp [Memory.insertCell]
  | cons e rest ih =>
    by_cases h : c.1 < e.1
    · simp [Memory.insertCell, h]
    · simp [Memory.insertCell, h, ih, or_left_comm]

theorem Memory.wf_insertCell {c : Host.Cell} {m : Memory} (hc : c.1 < 256) (hv : c.2 ≠ Memory.unlisted)
    (hne : ∀ d ∈ m, d.1 ≠ c.1) (h : Memory.wf m = true) : Memory.wf (Memory.insertCell c m) = true := by
  induction m with
  | nil => simp [Memory.insertCell, Memory.wf, Config.memSize, hc, hv]
  | cons d rest ih =>
    obtain ⟨key, v⟩ := d
    obtain ⟨h1, h2, h3, h4⟩ := (Memory.wf_cons ..).mp h
    have hd : key ≠ c.1 := hne (key, v) (by simp)
    by_cases hlt : c.1 < key
    · simp only [Memory.insertCell, hlt, if_true]
      rw [Memory.wf_cons]
      refine ⟨hc, hv, ?_, h⟩
      rintro e (_ | ⟨_, he⟩)
      · exact hlt
      · exact hlt.trans (h3 e he)
    · simp only [Memory.insertCell, hlt, if_false]
      rw [Memory.wf_cons]
      refine ⟨h1, h2, ?_, ih (fun e he => hne e (by simp [he])) h4⟩
      intro e he
      rcases Memory.mem_insertCell.mp he with rfl | he
      · omega
      · exact h3 e he

/-- Every write keeps memory in canonical form. -/
theorem Memory.wf_write {m : Memory} (h : Memory.wf m = true) (a v : Byte) : Memory.wf (Memory.write m a v) = true := by
  by_cases hv : v = Memory.unlisted
  · simpa [Memory.write, hv] using Memory.wf_eraseKey h a.toNat
  · simp only [Memory.write, hv, if_false]
    exact Memory.wf_insertCell a.isLt hv (fun d hd => (Memory.mem_of_mem_eraseKey hd).2) (Memory.wf_eraseKey h _)

/-- Loading bytes keeps memory in canonical form. -/
theorem Memory.wf_writeFrom (bytes : List Byte) : ∀ (k : Nat) {m : Memory}, Memory.wf m = true →
    Memory.wf (Memory.writeFrom k bytes m) = true := by
  induction bytes with
  | nil => intro k m h; exact h
  | cons v rest ih => intro k m h; exact ih (k + 1) (Memory.wf_write h _ _)

theorem Memory.wf_reset : Memory.wf State.reset.mem = true := rfl

/-- What loaded memory reads as: byte `b - k` of the sequence inside it, the old memory outside it. -/
theorem Memory.read_writeFrom (bytes : List Byte) : ∀ (k : Nat) (m : Memory), k + bytes.length ≤ 256 → ∀ b : Byte,
    Memory.read (Memory.writeFrom k bytes m) b =
      if h : k ≤ b.toNat ∧ b.toNat < k + bytes.length then bytes[b.toNat - k]'(by omega) else Memory.read m b := by
  induction bytes with
  | nil =>
    intro k m _ b
    rw [dif_neg (by simp)]
    rfl
  | cons v rest ih =>
    intro k m hk b
    simp only [List.length_cons] at hk
    have hb : (b = BitVec.ofNat 8 k) ↔ b.toNat = k := by
      rw [← BitVec.toNat_inj, BitVec.toNat_ofNat, Nat.mod_eq_of_lt (by omega)]
    simp only [Memory.writeFrom, ih (k + 1) _ (by omega) b, Memory.read_write, hb, List.length_cons]
    by_cases h1 : b.toNat = k
    · rw [dif_neg (by omega), if_pos h1, dif_pos (by omega)]
      simp [h1]
    · by_cases h2 : k + 1 ≤ b.toNat ∧ b.toNat < k + 1 + rest.length
      · rw [dif_pos h2, dif_pos (by omega)]
        have : b.toNat - k = (b.toNat - (k + 1)) + 1 := by omega
        simp [this]
      · rw [dif_neg h2, if_neg h1, dif_neg (by omega)]

end Sys2Proof.Machine
end

