-- ==== Sys2Proof/Laws/Exec.lean ====
section
/-! SUPPORT. What the shared operations, each instruction and the step can do, said once. -/

namespace Sys2Proof.Machine

/-! ## The shared operations -/

theorem withRegField_legal {field : OperandField} {opcode value : Byte} {s : State} {k : RegIdx → Result}
    (h : value.toNat < 8) : withRegField field opcode value s k = k ⟨value.toNat, h⟩ := by
  simp [withRegField, h]

theorem withRegField_illegal {field : OperandField} {opcode value : Byte} {s : State} {k : RegIdx → Result}
    (h : ¬ value.toNat < 8) :
    withRegField field opcode value s k = .next (s.setRun (.faulted (.illegalRegisterIndex field value opcode s.pc))) := by
  simp [withRegField, h, raiseFault]

theorem withRegA_illegal {opcode ra : Byte} {s : State} {k : RegIdx → Result} (h : ¬ ra.toNat < 8) :
    withRegA opcode ra s k = .next (s.setRun (.faulted (.illegalRegisterIndex .a ra opcode s.pc))) :=
  withRegField_illegal h

/-- The ALU instructions report field a before field b (60_exceptions.md R158). -/
theorem aluInstr_illegal_a {tag ra rb : Byte} {s : State} (h : ¬ ra.toNat < 8) :
    aluInstr tag ra rb s = .next (s.setRun (.faulted (.illegalRegisterIndex .a ra tag s.pc))) := by
  rw [aluInstr, withRegAB, withRegField_illegal h]

theorem aluInstr_illegal_b {tag ra rb : Byte} {s : State} (ha : ra.toNat < 8) (hb : ¬ rb.toNat < 8) :
    aluInstr tag ra rb s = .next (s.setRun (.faulted (.illegalRegisterIndex .b rb tag s.pc))) := by
  rw [aluInstr, withRegAB, withRegField_legal ha, withRegField_illegal hb]

/-- Everything the ALU instructions' shared handler can do when both fields are legal. -/
theorem aluInstr_legal {tag ra rb : Byte} {s : State} (ha : ra.toNat < 8) (hb : rb.toNat < 8) :
    aluInstr tag ra rb s =
      match alu tag (s.reg ⟨ra.toNat, ha⟩) (s.reg ⟨rb.toNat, hb⟩) with
      | .value v => .next ((s.setReg ⟨ra.toNat, ha⟩ v).setPc (s.pc + 3#8))
      | .flags f => .next ((s.setFlags f).setPc (s.pc + 3#8))
      | .unsupported => .next (s.setRun (.faulted .unsupportedALUOperation)) := by
  simp only [aluInstr, withRegAB, withRegField_legal ha, withRegField_legal hb, raiseFault, State.advancePc_eq]
  rfl

theorem alu_add (u v : Byte) : alu 0xA0#8 u v = .value (BitVec.ofNat 8 (u.toNat + v.toNat)) := rfl
theorem alu_mul (u v : Byte) : alu 0xA2#8 u v = .value (BitVec.ofNat 8 (u.toNat * v.toNat)) := rfl
theorem alu_cmp (u v : Byte) : alu 0xA7#8 u v = .flags (compareFlags u v) := rfl

/-- What an unknown opcode does, by policy. -/
theorem unknownOpcodeStep_fault {op : Byte} {s : State} (h : s.policy = .fault) :
    unknownOpcodeStep op s = .next (s.setRun (.faulted (.illegalOpcode op s.pc))) := by
  simp [unknownOpcodeStep, h, raiseFault]

theorem unknownOpcodeStep_spin {op : Byte} {s : State} (h : s.policy = .spin) :
    unknownOpcodeStep op s = .next (s.diagnose ⟨op, s.pc⟩) := by
  simp [unknownOpcodeStep, h]

/-! ## Each instruction with legal fields -/

theorem execHlt_eq (s : State) : execHlt s = .next ((s.setRun .halted).setPc (s.pc + 1#8)) := by simp [execHlt]

theorem execLdi_legal {ra imm : Byte} {s : State} (h : ra.toNat < 8) :
    execLdi ra imm s = .next ((s.setReg ⟨ra.toNat, h⟩ imm).setPc (s.pc + 3#8)) := by
  simp [execLdi, withRegA, withRegField_legal h]

theorem execPrn_legal {ra : Byte} {s : State} (h : ra.toNat < 8) :
    execPrn ra s = .next ((s.out (s.reg ⟨ra.toNat, h⟩)).setPc (s.pc + 2#8)) := by
  simp [execPrn, withRegA, withRegField_legal h]

theorem execAdd_legal {ra rb : Byte} {s : State} (ha : ra.toNat < 8) (hb : rb.toNat < 8) :
    execAdd ra rb s = .next ((s.setReg ⟨ra.toNat, ha⟩
      (BitVec.ofNat 8 ((s.reg ⟨ra.toNat, ha⟩).toNat + (s.reg ⟨rb.toNat, hb⟩).toNat))).setPc (s.pc + 3#8)) := by
  rw [execAdd, aluInstr_legal ha hb, alu_add]

theorem execMul_legal {ra rb : Byte} {s : State} (ha : ra.toNat < 8) (hb : rb.toNat < 8) :
    execMul ra rb s = .next ((s.setReg ⟨ra.toNat, ha⟩
      (BitVec.ofNat 8 ((s.reg ⟨ra.toNat, ha⟩).toNat * (s.reg ⟨rb.toNat, hb⟩).toNat))).setPc (s.pc + 3#8)) := by
  rw [execMul, aluInstr_legal ha hb, alu_mul]

theorem execCmp_legal {ra rb : Byte} {s : State} (ha : ra.toNat < 8) (hb : rb.toNat < 8) :
    execCmp ra rb s =
      .next ((s.setFlags (compareFlags (s.reg ⟨ra.toNat, ha⟩) (s.reg ⟨rb.toNat, hb⟩))).setPc (s.pc + 3#8)) := by
  rw [execCmp, aluInstr_legal ha hb, alu_cmp]

theorem execPush_legal {ra : Byte} {s : State} (h : ra.toNat < 8) :
    execPush ra s = .next (((s.setReg 7 (s.reg 7 - 1#8)).writeMem (s.reg 7 - 1#8)
      ((s.setReg 7 (s.reg 7 - 1#8)).reg ⟨ra.toNat, h⟩)).setPc (s.pc + 2#8)) := by
  simp [execPush, withRegA, withRegField_legal h]

theorem execPop_legal {ra : Byte} {s : State} (h : ra.toNat < 8) :
    execPop ra s = .next (((s.setReg ⟨ra.toNat, h⟩ (s.readMem (s.reg 7))).setReg 7
      ((s.setReg ⟨ra.toNat, h⟩ (s.readMem (s.reg 7))).reg 7 + 1#8)).setPc (s.pc + 2#8)) := by
  simp [execPop, withRegA, withRegField_legal h]

theorem execCall_legal {ra : Byte} {s : State} (h : ra.toNat < 8) :
    execCall ra s = .next (((s.setReg 7 (s.reg 7 - 1#8)).writeMem (s.reg 7 - 1#8) (s.pc + 2#8)).setPc
      ((s.setReg 7 (s.reg 7 - 1#8)).reg ⟨ra.toNat, h⟩)) := by
  simp [execCall, withRegA, withRegField_legal h, addrPlus_eq]

theorem execRet_eq (s : State) :
    execRet s = .next ((s.setPc (s.readMem (s.reg 7))).setReg 7 (s.reg 7 + 1#8)) := by
  simp [execRet]

theorem execJmp_legal {ra : Byte} {s : State} (h : ra.toNat < 8) :
    execJmp ra s = .next (s.setPc (s.reg ⟨ra.toNat, h⟩)) := by
  simp [execJmp, withRegA, withRegField_legal h]

theorem execJeq_legal {ra : Byte} {s : State} (h : ra.toNat < 8) :
    execJeq ra s = .next (s.setPc (if s.flags.equal then s.reg ⟨ra.toNat, h⟩ else s.pc + 2#8)) := by
  simp only [execJeq, withRegA, withRegField_legal h, State.branch]
  split <;> simp

theorem execJne_legal {ra : Byte} {s : State} (h : ra.toNat < 8) :
    execJne ra s = .next (s.setPc (if s.flags.equal then s.pc + 2#8 else s.reg ⟨ra.toNat, h⟩)) := by
  simp only [execJne, withRegA, withRegField_legal h, State.branch]
  cases s.flags.equal <;> simp

/-- The result of a meaning that ends in the register-field fault. -/
abbrev FieldFault (i : Instr) (s t : State) : Prop :=
  ∃ f v, i.firstIllegalField = some (f, v) ∧
    t = (s.setRun (.faulted (.illegalRegisterIndex f v i.opcode s.pc)))

/-- Everything `exec` can do when it answers a next state. -/
theorem exec_cases {i : Instr} {s t : State} (h : exec i s = .next t) :
    FieldFault i s t ∨ i.firstIllegalField = none ∧ (
    (i = .hlt ∧ t = (s.setRun .halted).setPc (s.pc + 1#8)) ∨
    (∃ ra imm, ∃ h : ra.toNat < 8, i = .ldi ra imm ∧ t = (s.setReg ⟨ra.toNat, h⟩ imm).setPc (s.pc + 3#8)) ∨
    (∃ ra, ∃ h : ra.toNat < 8, i = .prn ra ∧ t = (s.out (s.reg ⟨ra.toNat, h⟩)).setPc (s.pc + 2#8)) ∨
    (∃ ra rb v, ∃ h : ra.toNat < 8, (i = .add ra rb ∨ i = .mul ra rb) ∧
      t = (s.setReg ⟨ra.toNat, h⟩ v).setPc (s.pc + 3#8)) ∨
    (∃ ra, ∃ h : ra.toNat < 8, i = .push ra ∧ t = ((s.setReg 7 (s.reg 7 - 1#8)).writeMem (s.reg 7 - 1#8)
      ((s.setReg 7 (s.reg 7 - 1#8)).reg ⟨ra.toNat, h⟩)).setPc (s.pc + 2#8)) ∨
    (∃ ra, ∃ h : ra.toNat < 8, i = .pop ra ∧ t = ((s.setReg ⟨ra.toNat, h⟩ (s.readMem (s.reg 7))).setReg 7
      ((s.setReg ⟨ra.toNat, h⟩ (s.readMem (s.reg 7))).reg 7 + 1#8)).setPc (s.pc + 2#8)) ∨
    (∃ ra, ∃ h : ra.toNat < 8, i = .call ra ∧
      t = ((s.setReg 7 (s.reg 7 - 1#8)).writeMem (s.reg 7 - 1#8) (s.pc + 2#8)).setPc
        ((s.setReg 7 (s.reg 7 - 1#8)).reg ⟨ra.toNat, h⟩)) ∨
    (i = .ret ∧ t = (s.setPc (s.readMem (s.reg 7))).setReg 7 (s.reg 7 + 1#8)) ∨
    (∃ ra rb u v, i = .cmp ra rb ∧ t = (s.setFlags (compareFlags u v)).setPc (s.pc + 3#8)) ∨
    (∃ ra p, (i = .jmp ra ∨ i = .jeq ra ∨ i = .jne ra) ∧ t = s.setPc p)) := by
  have one : ∀ {op ra : Byte} {k : RegIdx → Result}, ¬ ra.toNat < 8 → withRegA op ra s k = .next t →
      t = (s.setRun (.faulted (.illegalRegisterIndex .a ra op s.pc))) := by
    intro op ra k hn hk
    rw [withRegA, withRegField_illegal hn] at hk
    exact (Host.Outcome.next.inj hk).symm
  have two : ∀ {op ra rb : Byte}, ¬ (ra.toNat < 8 ∧ rb.toNat < 8) → aluInstr op ra rb s = .next t →
      (¬ ra.toNat < 8 ∧ t = (s.setRun (.faulted (.illegalRegisterIndex .a ra op s.pc)))) ∨
      (ra.toNat < 8 ∧ ¬ rb.toNat < 8 ∧ t = (s.setRun (.faulted (.illegalRegisterIndex .b rb op s.pc)))) := by
    intro op ra rb hn hk
    by_cases ha : ra.toNat < 8
    · have hb : ¬ rb.toNat < 8 := fun hb => hn ⟨ha, hb⟩
      rw [aluInstr, withRegAB, withRegField_legal ha, withRegField_illegal hb] at hk
      exact .inr ⟨ha, hb, (Host.Outcome.next.inj hk).symm⟩
    · rw [aluInstr, withRegAB, withRegField_illegal ha] at hk
      exact .inl ⟨ha, (Host.Outcome.next.inj hk).symm⟩
  cases i with
  | hlt =>
    rw [exec, execHlt_eq] at h
    cases h
    exact .inr ⟨rfl, by simp⟩
  | ret =>
    rw [exec, execRet_eq] at h
    cases h
    exact .inr ⟨rfl, by simp⟩
  | ldi ra imm =>
    by_cases hr : ra.toNat < 8
    · rw [exec, execLdi_legal hr] at h
      cases h
      exact .inr ⟨by simp [Instr.firstIllegalField, legalField, hr], by simp [hr]⟩
    · rw [exec, execLdi] at h
      exact .inl ⟨.a, ra, by simp [Instr.firstIllegalField, legalField, hr], one hr h⟩
  | prn ra =>
    by_cases hr : ra.toNat < 8
    · rw [exec, execPrn_legal hr] at h
      cases h
      exact .inr ⟨by simp [Instr.firstIllegalField, legalField, hr], by simp [hr]⟩
    · rw [exec, execPrn] at h
      exact .inl ⟨.a, ra, by simp [Instr.firstIllegalField, legalField, hr], one hr h⟩
  | push ra =>
    by_cases hr : ra.toNat < 8
    · rw [exec, execPush_legal hr] at h
      cases h
      exact .inr ⟨by simp [Instr.firstIllegalField, legalField, hr], by simp [hr]⟩
    · rw [exec, execPush] at h
      exact .inl ⟨.a, ra, by simp [Instr.firstIllegalField, legalField, hr], one hr h⟩
  | pop ra =>
    by_cases hr : ra.toNat < 8
    · rw [exec, execPop_legal hr] at h
      cases h
      exact .inr ⟨by simp [Instr.firstIllegalField, legalField, hr], by simp [hr]⟩
    · rw [exec, execPop] at h
      exact .inl ⟨.a, ra, by simp [Instr.firstIllegalField, legalField, hr], one hr h⟩
  | call ra =>
    by_cases hr : ra.toNat < 8
    · rw [exec, execCall_legal hr] at h
      cases h
      exact .inr ⟨by simp [Instr.firstIllegalField, legalField, hr], by simp [hr]⟩
    · rw [exec, execCall] at h
      exact .inl ⟨.a, ra, by simp [Instr.firstIllegalField, legalField, hr], one hr h⟩
  | jmp ra =>
    by_cases hr : ra.toNat < 8
    · rw [exec, execJmp_legal hr] at h
      cases h
      exact .inr ⟨by simp [Instr.firstIllegalField, legalField, hr], by simp⟩
    · rw [exec, execJmp] at h
      exact .inl ⟨.a, ra, by simp [Instr.firstIllegalField, legalField, hr], one hr h⟩
  | jeq ra =>
    by_cases hr : ra.toNat < 8
    · rw [exec, execJeq_legal hr] at h
      cases h
      exact .inr ⟨by simp [Instr.firstIllegalField, legalField, hr], by simp⟩
    · rw [exec, execJeq] at h
      exact .inl ⟨.a, ra, by simp [Instr.firstIllegalField, legalField, hr], one hr h⟩
  | jne ra =>
    by_cases hr : ra.toNat < 8
    · rw [exec, execJne_legal hr] at h
      cases h
      exact .inr ⟨by simp [Instr.firstIllegalField, legalField, hr], by simp⟩
    · rw [exec, execJne] at h
      exact .inl ⟨.a, ra, by simp [Instr.firstIllegalField, legalField, hr], one hr h⟩
  | add ra rb =>
    by_cases hr : ra.toNat < 8 ∧ rb.toNat < 8
    · rw [exec, execAdd_legal hr.1 hr.2] at h
      cases h
      exact .inr ⟨by simp [Instr.firstIllegalField, legalField, hr], by simp [hr]; exact ⟨_, rfl⟩⟩
    · rcases two hr h with ⟨ha, ht⟩ | ⟨ha, hb, ht⟩
      · exact .inl ⟨.a, ra, by simp [Instr.firstIllegalField, legalField, ha], ht⟩
      · exact .inl ⟨.b, rb, by simp [Instr.firstIllegalField, legalField, ha, hb], ht⟩
  | mul ra rb =>
    by_cases hr : ra.toNat < 8 ∧ rb.toNat < 8
    · rw [exec, execMul_legal hr.1 hr.2] at h
      cases h
      exact .inr ⟨by simp [Instr.firstIllegalField, legalField, hr], by simp [hr]; exact ⟨_, rfl⟩⟩
    · rcases two hr h with ⟨ha, ht⟩ | ⟨ha, hb, ht⟩
      · exact .inl ⟨.a, ra, by simp [Instr.firstIllegalField, legalField, ha], ht⟩
      · exact .inl ⟨.b, rb, by simp [Instr.firstIllegalField, legalField, ha, hb], ht⟩
  | cmp ra rb =>
    by_cases hr : ra.toNat < 8 ∧ rb.toNat < 8
    · rw [exec, execCmp_legal hr.1 hr.2] at h
      cases h
      exact .inr ⟨by simp [Instr.firstIllegalField, legalField, hr], by simp; exact ⟨_, _, rfl⟩⟩
    · rcases two hr h with ⟨ha, ht⟩ | ⟨ha, hb, ht⟩
      · exact .inl ⟨.a, ra, by simp [Instr.firstIllegalField, legalField, ha], ht⟩
      · exact .inl ⟨.b, rb, by simp [Instr.firstIllegalField, legalField, ha, hb], ht⟩

/-! ## The step -/

theorem step_stopped {s : State} (h : s.run ≠ .running) : step s = .next s := by
  unfold step
  split
  · contradiction
  · rfl
  · rfl

/-- Everything `step` can do when it answers a next state. -/
theorem step_cases {s t : State} (h : step s = .next t) :
    (s.run ≠ .running ∧ t = s) ∨
    (s.run = .running ∧ ∃ i, decode s.fetch = .ok i ∧ exec i s = .next t) ∨
    (s.run = .running ∧ s.fetch.op ∉ knownOpcodes ∧ decode s.fetch = .error (.unknownOpcode s.fetch.op) ∧
      unknownOpcodeStep s.fetch.op s = .next t) := by
  by_cases hr : s.run = .running
  · simp only [step, hr] at h
    rcases hd : decode s.fetch with ⟨⟨op⟩⟩ | i
    · have : op = s.fetch.op ∧ s.fetch.op ∉ knownOpcodes := by
        rcases decode_cases s.fetch with ⟨_, hx⟩ | ⟨_, hx⟩ | ⟨_, hx⟩ | ⟨_, hx⟩ | ⟨_, hx⟩ | ⟨_, hx⟩ | ⟨_, hx⟩ | ⟨_, hx⟩ |
          ⟨_, hx⟩ | ⟨_, hx⟩ | ⟨_, hx⟩ | ⟨_, hx⟩ | ⟨_, hx⟩ | ⟨hn, hx⟩ <;> rw [hx] at hd <;> cases hd
        exact ⟨rfl, hn⟩
      obtain ⟨rfl, hn⟩ := this
      rw [hd] at h
      exact .inr (.inr ⟨hr, hn, rfl, h⟩)
    · rw [hd] at h
      exact .inr (.inl ⟨hr, i, rfl, h⟩)
  · rw [step_stopped hr] at h
    exact .inl ⟨hr, (Host.Outcome.next.inj h).symm⟩

/-! ## Runs -/

@[simp] theorem runSteps_zero (s : State) : runSteps 0 s = .next s := rfl

theorem runSteps_succ {s t : State} (h : step s = .next t) (k : Nat) : runSteps (k + 1) s = runSteps k t := by
  have h' : core.step s = .next t := h
  simp only [runSteps, Host.Core.run]
  rw [h']

end Sys2Proof.Machine
end

