-- ==== Sys2Proof/Laws/PerInstr.lean ====
section
/-! SUPPORT. Facts about the syntax, one lemma per constructor of `Instr` (LAWS.json names the families). -/

namespace Sys2Proof.Laws.EncodeShape

/-- The encoding has the length its opcode gives it and begins with a known opcode byte (30_encoding.md R60, R67, R71). -/
def Statement (i : Instr) : Prop :=
  (encode i).length = i.length ∧ (encode i).head? = some i.opcode ∧ i.opcode ∈ knownOpcodes

theorem hlt : Statement .hlt := ⟨rfl, rfl, by simp [Instr.opcode, knownOpcodes]⟩
theorem ldi (ra imm : Byte) : Statement (.ldi ra imm) := ⟨rfl, rfl, by simp [Instr.opcode, knownOpcodes]⟩
theorem prn (ra : Byte) : Statement (.prn ra) := ⟨rfl, rfl, by simp [Instr.opcode, knownOpcodes]⟩
theorem add (ra rb : Byte) : Statement (.add ra rb) := ⟨rfl, rfl, by simp [Instr.opcode, knownOpcodes]⟩
theorem mul (ra rb : Byte) : Statement (.mul ra rb) := ⟨rfl, rfl, by simp [Instr.opcode, knownOpcodes]⟩
theorem push (ra : Byte) : Statement (.push ra) := ⟨rfl, rfl, by simp [Instr.opcode, knownOpcodes]⟩
theorem pop (ra : Byte) : Statement (.pop ra) := ⟨rfl, rfl, by simp [Instr.opcode, knownOpcodes]⟩
theorem call (ra : Byte) : Statement (.call ra) := ⟨rfl, rfl, by simp [Instr.opcode, knownOpcodes]⟩
theorem ret : Statement .ret := ⟨rfl, rfl, by simp [Instr.opcode, knownOpcodes]⟩
theorem cmp (ra rb : Byte) : Statement (.cmp ra rb) := ⟨rfl, rfl, by simp [Instr.opcode, knownOpcodes]⟩
theorem jmp (ra : Byte) : Statement (.jmp ra) := ⟨rfl, rfl, by simp [Instr.opcode, knownOpcodes]⟩
theorem jeq (ra : Byte) : Statement (.jeq ra) := ⟨rfl, rfl, by simp [Instr.opcode, knownOpcodes]⟩
theorem jne (ra : Byte) : Statement (.jne ra) := ⟨rfl, rfl, by simp [Instr.opcode, knownOpcodes]⟩

end Sys2Proof.Laws.EncodeShape
end

