-- ==== Sys2Proof/Tests/Slice0.lean ====
section
/-! SUPPORT. The model's own tests. Expected values are from spec/95_test_vectors.md (the vector is named at each test) and
from the encodings of 30_encoding.md R67, written out by hand. Then, for each statement with hypotheses, a state and operands
that meet them. -/

namespace Sys2Proof.Tests

open Sys2Proof.Machine

/-! ## Helpers -/

/-- Reset, with these bytes in memory from `pc` upward, these registers and these flags. -/
def at_ (pc : Byte) (bytes : List Byte) (regs : Vector Byte 8 := State.reset.regs)
    (flags : Flags := ⟨false, false, false⟩) : State :=
  { State.reset with pc := pc, mem := Memory.writeFrom pc.toNat bytes [], regs := regs, flags := flags }

/-- The state one step later. -/
def after (s : State) : Option State :=
  match step s with
  | .next t => some t
  | .fault _ => none
  | .refused _ => none

/-! ## WellFormed refuses an ill-formed term, check by check -/

theorem test_wf_ldi : (Instr.ldi 0x08#8 0x01#8).wellFormed = false := by decide
theorem test_wf_ldi_immediate_unrestricted : (Instr.ldi 0x07#8 0xFF#8).wellFormed = true := by decide
theorem test_wf_prn : (Instr.prn 0x09#8).wellFormed = false := by decide
theorem test_wf_add_a : (Instr.add 0x08#8 0x00#8).wellFormed = false := by decide
theorem test_wf_add_b : (Instr.add 0x00#8 0x09#8).wellFormed = false := by decide
theorem test_wf_mul_a : (Instr.mul 0x80#8 0x00#8).wellFormed = false := by decide
theorem test_wf_mul_b : (Instr.mul 0x00#8 0x08#8).wellFormed = false := by decide
theorem test_wf_cmp_a : (Instr.cmp 0xFF#8 0x07#8).wellFormed = false := by decide
theorem test_wf_cmp_b : (Instr.cmp 0x07#8 0x10#8).wellFormed = false := by decide
theorem test_wf_push : (Instr.push 0x08#8).wellFormed = false := by decide
theorem test_wf_pop : (Instr.pop 0x0F#8).wellFormed = false := by decide
theorem test_wf_call : (Instr.call 0x0F#8).wellFormed = false := by decide
theorem test_wf_jmp : (Instr.jmp 0x08#8).wellFormed = false := by decide
theorem test_wf_jeq : (Instr.jeq 0x10#8).wellFormed = false := by decide
theorem test_wf_jne : (Instr.jne 0x20#8).wellFormed = false := by decide

/-! ## Every constructor from its word (30_encoding.md R67; the first byte is the low byte of the word) -/

theorem test_decode_hlt : decodeTableWord 8 0b00000001 = some .hlt := by decide
theorem test_decode_ldi : decodeTableWord 24 0b11111111_00000011_10000010 = some (.ldi 0x03#8 0xFF#8) := by decide
theorem test_decode_prn : decodeTableWord 16 0b00000010_01000111 = some (.prn 0x02#8) := by decide
theorem test_decode_add : decodeTableWord 24 0b00000001_00000111_10100000 = some (.add 0x07#8 0x01#8) := by decide
theorem test_decode_mul : decodeTableWord 24 0b00000011_00000100_10100010 = some (.mul 0x04#8 0x03#8) := by decide
theorem test_decode_push : decodeTableWord 16 0b00000010_01000101 = some (.push 0x02#8) := by decide
theorem test_decode_pop : decodeTableWord 16 0b00000101_01000110 = some (.pop 0x05#8) := by decide
theorem test_decode_call : decodeTableWord 16 0b00000001_01010000 = some (.call 0x01#8) := by decide
theorem test_decode_ret : decodeTableWord 8 0b00010001 = some .ret := by decide
theorem test_decode_cmp : decodeTableWord 24 0b00000001_00000000_10100111 = some (.cmp 0x00#8 0x01#8) := by decide
theorem test_decode_jmp : decodeTableWord 16 0b00000100_01010100 = some (.jmp 0x04#8) := by decide
theorem test_decode_jeq : decodeTableWord 16 0b00000010_01010101 = some (.jeq 0x02#8) := by decide
theorem test_decode_jne : decodeTableWord 16 0b00000010_01010110 = some (.jne 0x02#8) := by decide
/-- V-DEC-1, V-DEC-4, V-DEC-5, V-DEC-6: the neighbours of the defined opcodes are unknown. -/
theorem test_decode_unknown :
    ∀ op ∈ [0x00#8, 0x02#8, 0x81#8, 0x83#8, 0xA1#8, 0xA3#8, 0xA6#8, 0xA8#8, 0x10#8, 0x12#8, 0x44#8, 0x48#8, 0x4F#8,
      0x51#8, 0x53#8, 0x57#8, 0xC0#8, 0xFF#8], decode ⟨op, 0x00#8, 0x00#8⟩ = .error (.unknownOpcode op) := by
  simp [decode]
/-- 30_encoding.md R68: there are 243 unknown opcodes. -/
theorem test_unknown_count : ((List.range 256).filter fun n => !knownOpcodes.contains (BitVec.ofNat 8 n)).length = 243 := by
  decide +kernel

/-! ## One step of each instruction -/

/-- V-HLT-3 -/
theorem test_hlt_wraps : (after (at_ 0xFF#8 [0x01#8, 0x99#8, 0x99#8])).map (fun t => (t.run, t.pc)) =
    some (.halted, 0x00#8) := by decide
/-- V-LDI-7 -/
theorem test_ldi_straddles_top : (after (at_ 0xFF#8 [0x82#8, 0x03#8, 0x7F#8])).map (fun t => (t.reg 3, t.pc)) =
    some (0x7F#8, 0x02#8) := by decide
/-- V-LDI-5 -/
theorem test_ldi_illegal_field : (after (at_ 0x00#8 [0x82#8, 0x08#8, 0x01#8])).map (fun t => (t.run, t.pc)) =
    some (.faulted (.illegalRegisterIndex .a 0x08#8 0x82#8 0x00#8), 0x00#8) := by decide
/-- V-PRN-4 -/
theorem test_prn_sp : (after (at_ 0x00#8 [0x47#8, 0x07#8])).map (fun t => (t.output, t.pc)) =
    some ([0xF4#8], 0x02#8) := by decide
/-- V-ADD-1 (S1) -/
theorem test_add_wraps :
    (after (at_ 0x00#8 [0xA0#8, 0x00#8, 0x01#8] #v[200#8, 100#8, 0, 0, 0, 0, 0, 0xF4#8])).map
      (fun t => (t.reg 0, t.reg 1, t.pc)) = some (44#8, 100#8, 0x03#8) := by decide
/-- V-ADD-14 -/
theorem test_add_reports_field_a : (after (at_ 0x00#8 [0xA0#8, 0x0A#8, 0x09#8])).map State.run =
    some (.faulted (.illegalRegisterIndex .a 0x0A#8 0xA0#8 0x00#8)) := by decide
/-- V-MUL-4 -/
theorem test_mul_keeps_low_byte :
    (after (at_ 0x00#8 [0xA2#8, 0x00#8, 0x01#8] #v[200#8, 100#8, 0, 0, 0, 0, 0, 0xF4#8])).map
      (fun t => (t.reg 0, t.reg 1, t.pc)) = some (32#8, 100#8, 0x03#8) := by decide
/-- V-MUL-14 -/
theorem test_mul_reports_field_b : (after (at_ 0x00#8 [0xA2#8, 0x00#8, 0x08#8])).map State.run =
    some (.faulted (.illegalRegisterIndex .b 0x08#8 0xA2#8 0x00#8)) := by decide
/-- V-CMP-8 -/
theorem test_cmp_is_unsigned :
    (after (at_ 0x00#8 [0xA7#8, 0x00#8, 0x01#8] #v[128#8, 127#8, 0, 0, 0, 0, 0, 0xF4#8])).map (fun t => (t.flags, t.pc)) =
      some (⟨false, false, true⟩, 0x03#8) := by decide
/-- V-CMP-11 -/
theorem test_cmp_rewrites_all_flags :
    (after (at_ 0x00#8 [0xA7#8, 0x00#8, 0x01#8] #v[5#8, 7#8, 0, 0, 0, 0, 0, 0xF4#8] ⟨true, true, true⟩)).map State.flags =
      some ⟨false, true, false⟩ := by decide
/-- V-PUSH-2 -/
theorem test_push_wraps :
    (after (at_ 0x10#8 [0x45#8, 0x00#8] #v[0x11#8, 0, 0, 0, 0, 0, 0, 0x00#8])).map
      (fun t => (t.reg 7, t.readMem 0xFF#8, t.pc)) = some (0xFF#8, 0x11#8, 0x12#8) := by decide
/-- V-PUSH-3 -/
theorem test_push_r7_stores_new_sp : (after (at_ 0x00#8 [0x45#8, 0x07#8])).map (fun t => (t.reg 7, t.readMem 0xF3#8)) =
    some (0xF3#8, 0xF3#8) := by decide
/-- V-POP-1 -/
theorem test_pop :
    (after ((at_ 0x08#8 [0x46#8, 0x05#8] #v[0, 0, 0, 0, 0, 0, 0, 0xF3#8]).writeMem 0xF3#8 0x2A#8)).map
      (fun t => (t.reg 5, t.reg 7, t.pc, t.readMem 0xF3#8)) = some (0x2A#8, 0xF4#8, 0x0A#8, 0x2A#8) := by decide
/-- V-POP-4 -/
theorem test_pop_r7 :
    (after ((at_ 0x00#8 [0x46#8, 0x07#8] #v[0, 0, 0, 0, 0, 0, 0, 0xF3#8]).writeMem 0xF3#8 0x20#8)).map
      (fun t => (t.reg 7, t.pc)) = some (0x21#8, 0x02#8) := by decide
/-- V-CALL-2 -/
theorem test_call_wraps_return_address :
    (after (at_ 0xFF#8 [0x50#8, 0x01#8] #v[0, 0x40#8, 0, 0, 0, 0, 0, 0xF4#8])).map
      (fun t => (t.reg 7, t.readMem 0xF3#8, t.pc)) = some (0xF3#8, 0x01#8, 0x40#8) := by decide
/-- V-CALL-3 -/
theorem test_call_r7 : (after (at_ 0x06#8 [0x50#8, 0x07#8])).map (fun t => (t.reg 7, t.readMem 0xF3#8, t.pc)) =
    some (0xF3#8, 0x08#8, 0xF3#8) := by decide
/-- V-RET-2 -/
theorem test_ret_wraps :
    (after ((at_ 0x00#8 [0x11#8] #v[0, 0, 0, 0, 0, 0, 0, 0xFF#8]).writeMem 0xFF#8 0x55#8)).map
      (fun t => (t.pc, t.reg 7)) = some (0x55#8, 0x00#8) := by decide
/-- V-JMP-1 -/
theorem test_jmp : (after (at_ 0x0C#8 [0x54#8, 0x04#8] #v[0, 0, 0, 0, 0x20#8, 0, 0, 0xF4#8])).map State.pc =
    some 0x20#8 := by decide
/-- V-JEQ-3 -/
theorem test_jeq_not_taken_wraps : (after (at_ 0xFE#8 [0x55#8, 0x02#8])).map State.pc = some 0x00#8 := by decide
/-- V-JEQ-5 -/
theorem test_jeq_reads_equal_only :
    (after (at_ 0x12#8 [0x55#8, 0x02#8] #v[0, 0, 0x30#8, 0, 0, 0, 0, 0xF4#8] ⟨false, true, true⟩)).map State.pc =
      some 0x14#8 := by decide
/-- V-JNE-2 -/
theorem test_jne_not_taken :
    (after (at_ 0x0F#8 [0x56#8, 0x02#8] #v[0, 0, 0x06#8, 0, 0, 0, 0, 0xF4#8] ⟨true, false, false⟩)).map State.pc =
      some 0x11#8 := by decide
/-- V-JNE-3 -/
theorem test_jne_all_flags_clear :
    (after (at_ 0x0F#8 [0x56#8, 0x02#8] #v[0, 0, 0x06#8, 0, 0, 0, 0, 0xF4#8])).map State.pc = some 0x06#8 := by decide
/-- V-DEC-3 -/
theorem test_unknown_opcode_faults : (after (at_ 0x00#8 [0xFF#8, 0x08#8, 0x09#8])).map (fun t => (t.run, t.pc)) =
    some (.faulted (.illegalOpcode 0xFF#8 0x00#8), 0x00#8) := by decide
/-- V-DEC-2 -/
theorem test_unknown_opcode_spins :
    after { at_ 0x03#8 [] with policy := .spin } =
      some { at_ 0x03#8 [] with policy := .spin, diagnostics := [⟨0x00#8, 0x03#8⟩] } := by decide
/-- S8: the image `01` launched from reset halts with `pc = 1`, SP = 0xF4 and no output. -/
theorem test_launch_hlt : ((State.launch LaunchParams.simulatorDefault [0x01#8]).bind after).map
    (fun t => (t.run, t.pc, t.reg 7, t.output)) = some (.halted, 0x01#8, 0xF4#8, []) := by decide +kernel
/-- The simulator defaults with an empty image are `State.reset` (00_scope.md R5). -/
theorem test_launch_default_is_reset : State.launch LaunchParams.simulatorDefault [] = some State.reset := by decide +kernel
/-- `withFetchWord` right after reset: LDI R3,0xFF runs as the first instruction. -/
theorem test_withFetchWord : (after (State.reset.withFetchWord 24 0xFF0382)).map (fun t => (t.reg 3, t.pc)) =
    some (0xFF#8, 0x03#8) := by decide
/-- V-CALL-1 on the memory interface: three window reads, then one write. -/
theorem test_bus_call : (at_ 0x06#8 [0x50#8, 0x01#8] #v[0, 0x10#8, 0, 0, 0, 0, 0, 0xF4#8]).busEvents =
    [.read 0x06#8 0x50#8, .read 0x07#8 0x01#8, .read 0x08#8 0x00#8, .write 0xF3#8 0x08#8] := by decide

/-! ## The environment's side -/

/-- P2's console text (R102). -/
theorem test_console_text : consoleText [3#8, 2#8, 1#8, 255#8, 0#8] = "3\n2\n1\n255\n0\n" := by decide +kernel
/-- The source's one line of assembly (R73). -/
theorem test_asm : [Instr.ldi 0 8, .ldi 1 9, .mul 0 1, .prn 0, .hlt].map Instr.asm =
    ["LDI R0,8", "LDI R1,9", "MUL R0,R1", "PRN R0", "HLT"] := by decide +kernel
/-- The cause codes of 60_exceptions.md R150. -/
theorem test_fault_codes : (Fault.illegalOpcode 0 0).code = 1 ∧ (Fault.illegalRegisterIndex .a 8 0x82#8 0).code = 2 ∧
    Fault.unsupportedALUOperation.code = 3 := by decide

/-! ## Witnesses: for each statement with hypotheses, a state and operands that meet them, each clause at a boundary -/

/-- CMP R0,R1 at 0x00 with x[0] = 5, x[1] = 7. -/
def cmpState : State := at_ 0x00#8 [0xA7#8, 0x00#8, 0x01#8] #v[5#8, 7#8, 0, 0, 0, 0, 0, 0xF4#8]
/-- LDI R3,0x7F across the top of memory (V-LDI-7). -/
def ldiState : State := at_ 0xFF#8 [0x82#8, 0x03#8, 0x7F#8]
/-- PUSH R0 overwriting the next instruction (V-PUSH-4). -/
def pushState : State := at_ 0x06#8 [0x45#8, 0x00#8, 0x47#8] #v[1#8, 0, 0, 0, 0, 0, 0, 0x09#8]
/-- An unknown opcode under `fault` (V-DEC-1). -/
def unknownState : State := at_ 0x03#8 []
/-- The same under `spin` (V-DEC-2). -/
def spinState : State := { unknownState with policy := .spin }
/-- PRN with a register field of 9 (V-PRN-5). -/
def illegalState : State := at_ 0x00#8 [0x47#8, 0x09#8]
/-- CALL R7 at 0x06 (V-CALL-3). -/
def callState : State := at_ 0x06#8 [0x50#8, 0x07#8]
/-- x[0] = 1, x[6] = 2 and SP = 0x01, so that two pushes wrap below address 0. -/
def swapState : State := at_ 0x80#8 [] #v[1#8, 0, 0, 0, 0, 0, 2#8, 0x01#8]
/-- HLT at address 255 (V-HLT-3). -/
def hltState : State := at_ 0xFF#8 [0x01#8]

theorem witness_DecodeAndEncodeAgree : decode ⟨0x82#8, 0x07#8, 0xFF#8⟩ = .ok (.ldi 0x07#8 0xFF#8) := by decide
theorem witness_DecodeRefusesExactlyUnknownOpcodes : ∃ e, decode ⟨0x00#8, 0x00#8, 0x00#8⟩ = .error e := ⟨_, rfl⟩
theorem witness_UnusedWindowBytesAreIgnored :
    (decode ⟨0x47#8, 0x02#8, 0xEE#8⟩ = .ok (.prn 0x02#8) ∧ (Instr.prn 0x02#8).length ≤ 2) ∧
    (decode ⟨0x01#8, 0xFF#8, 0xFF#8⟩ = .ok .hlt ∧ Instr.hlt.length ≤ 1) := by decide
theorem witness_StepRunsDecodedInstruction : ldiState.run = .running ∧
    decode ⟨ldiState.readMem ldiState.pc, ldiState.readMem (ldiState.pc + 1#8), ldiState.readMem (ldiState.pc + 2#8)⟩ =
      .ok (.ldi 0x03#8 0x7F#8) := by decide
theorem witness_EncodedInstructionAtPcIsRun : ldiState.run = .running ∧
    ∀ (k : Nat) (h : k < (encode (.ldi 0x03#8 0x7F#8)).length),
      ldiState.readMem (ldiState.pc + BitVec.ofNat 8 k) = (encode (.ldi 0x03#8 0x7F#8))[k] := by decide
theorem witness_StoredWordIsTheOneFetched : decodeTableWord 24 0xFF0382 = some (.ldi 0x03#8 0xFF#8) ∧
    ∃ x : Byte, x ≠ State.reset.pc ∧ x ≠ State.reset.pc + 1#8 ∧ x ≠ State.reset.pc + 2#8 :=
  ⟨by decide, 0xFF#8, by decide⟩
theorem witness_StoppedMachineNeverChanges : (State.reset.setRun .halted).run ≠ .running ∧
    (State.reset.setRun (.faulted .unsupportedALUOperation)).run ≠ .running := by decide
theorem witness_StraightLineAdvancesByLength : (Instr.add 0x07#8 0x07#8).wellFormed = true ∧
    controlTransfer (.add 0x07#8 0x07#8) = false := by decide
/-- The clauses of the statements of the eight one-field instructions and of LdiThenPrnOutputsImmediate and
CallRetRoundTrip: 7 is the last legal field, 8 the first illegal one; the others are at the ends of the byte. -/
theorem witness_one_register_field : (0x00#8 : Byte).toNat < 8 ∧ (0x07#8 : Byte).toNat < 8 ∧
    8 ≤ (0x08#8 : Byte).toNat ∧ 8 ≤ (0xFF#8 : Byte).toNat := by decide
/-- The clauses of AddWrapsModulo256, MulKeepsLowByteOfProduct and CmpSetsAllThreeFlags. -/
theorem witness_two_register_fields : ((0x07#8 : Byte).toNat < 8 ∧ (0x07#8 : Byte).toNat < 8) ∧ 8 ≤ (0x08#8 : Byte).toNat ∧
    ((0x07#8 : Byte).toNat < 8 ∧ 8 ≤ (0x08#8 : Byte).toNat) := by decide
theorem witness_PopLoadsAndRaisesStackPointer : ((0x06#8 : Byte).toNat < 8 ∧ (0x06#8 : Byte).toNat ≠ 7) ∧
    ((0x07#8 : Byte).toNat < 8 ∧ (0x07#8 : Byte).toNat = 7) ∧ 8 ≤ (0x08#8 : Byte).toNat := by decide
theorem witness_JeqAndJne_flag_clauses : (at_ 0x00#8 [] State.reset.regs ⟨true, false, false⟩).flags.equal = true ∧
    (at_ 0x00#8 [] State.reset.regs ⟨false, true, true⟩).flags.equal = false := by decide
theorem witness_AluAlgebraicLaws :
    (alu 0xA0#8 200#8 100#8 = .value 44#8 ∧ alu 0xA0#8 100#8 255#8 = .value 99#8) ∧
    (alu 0xA2#8 200#8 100#8 = .value 32#8 ∧ alu 0xA2#8 100#8 3#8 = .value 44#8) ∧
    (alu 0xA0#8 255#8 1#8 = .value 0#8 ∧ alu 0xA2#8 2#8 255#8 = .value 254#8 ∧ alu 0xA2#8 2#8 1#8 = .value 2#8) := by decide
theorem witness_UnsupportedAluOperationIsUnreachable : (0xA1#8 : Byte) ∉ [0xA0#8, 0xA2#8, 0xA7#8] ∧
    (0x07#8 : Byte).toNat < 8 ∧ cmpState.run ≠ .faulted .unsupportedALUOperation ∧ ∃ t, step cmpState = .next t :=
  ⟨by decide, by decide, by decide, _, rfl⟩
theorem witness_CmpThenConditionalJumps : ((0x00#8 : Byte).toNat < 8 ∧ (0x01#8 : Byte).toNat < 8 ∧ (0x07#8 : Byte).toNat < 8) ∧
    cmpState.reg ⟨(0x00#8 : Byte).toNat, by decide⟩ ≠ cmpState.reg ⟨(0x01#8 : Byte).toNat, by decide⟩ ∧
    cmpState.reg ⟨(0x00#8 : Byte).toNat, by decide⟩ = cmpState.reg ⟨(0x00#8 : Byte).toNat, by decide⟩ := by decide
/-- The operands of PushPopRoundTrip, StackIsLastInFirstOut and PushRetIsIndirectJump: R6 is the last register they speak of. -/
theorem witness_registers_other_than_r7 : (0x06#8 : Byte).toNat < 7 ∧ (0x00#8 : Byte).toNat < 7 := by decide
theorem witness_IllegalRegisterFieldFaults :
    (Instr.add 0x0A#8 0x09#8).firstIllegalField = some (.a, 0x0A#8) ∧
    (Instr.add 0x07#8 0x08#8).firstIllegalField = some (.b, 0x08#8) ∧
    (Instr.add 0x07#8 0x07#8).firstIllegalField = none := by decide
theorem witness_UnknownOpcodeFaults : unknownState.run = .running ∧ unknownState.policy = .fault ∧
    unknownState.readMem unknownState.pc ∉ [0x01#8, 0x82#8, 0x47#8, 0xA0#8, 0xA2#8, 0x45#8, 0x46#8, 0x50#8, 0x11#8,
      0xA7#8, 0x54#8, 0x55#8, 0x56#8] := by decide
theorem witness_UnknownOpcodeSpinsForever : spinState.run = .running ∧ spinState.policy = .spin ∧
    spinState.readMem spinState.pc ∉ [0x01#8, 0x82#8, 0x47#8, 0xA0#8, 0xA2#8, 0x45#8, 0x46#8, 0x50#8, 0x11#8,
      0xA7#8, 0x54#8, 0x55#8, 0x56#8] := by decide
theorem witness_FaultEntryIsPrecise : ∃ t, illegalState.run = .running ∧ step illegalState = .next t ∧
    t.run = .faulted (.illegalRegisterIndex .a 0x09#8 0x47#8 0x00#8) := ⟨_, rfl, rfl, by decide⟩
/-- Each side of StepFaultsExactlyWhen: an unknown opcode, an illegal field, and a step that does not fault. -/
theorem witness_StepFaultsExactlyWhen :
    (∃ t, step unknownState = .next t ∧ t.goneWrong = true) ∧ (∃ t, step illegalState = .next t ∧ t.goneWrong = true) ∧
    (∃ t, step ldiState = .next t ∧ t.goneWrong = false) :=
  ⟨⟨_, rfl, by decide⟩, ⟨_, rfl, by decide⟩, ⟨_, rfl, by decide⟩⟩
theorem witness_HaltedReachedOnlyByHlt :
    (∃ t, hltState.run = .running ∧ step hltState = .next t ∧ t.endedNormally = true) ∧
    (∃ t, ldiState.run = .running ∧ step ldiState = .next t ∧ t.endedNormally = false) :=
  ⟨⟨_, rfl, rfl, by decide⟩, ⟨_, rfl, rfl, by decide⟩⟩
/-- A Running state whose step reaches Halted: the hypotheses of HltHaltsAndAdvancesByOne. -/
theorem witness_HltHaltsAndAdvancesByOne :
    ∃ t, hltState.run = .running ∧ step hltState = .next t ∧ t.run = .halted := ⟨_, rfl, rfl, by decide⟩
theorem witness_FlagsWrittenOnlyByCmp : ∃ t, step cmpState = .next t ∧ t.flags ≠ cmpState.flags := ⟨_, rfl, by decide⟩
theorem witness_OneFlagTrueIsKept :
    (∃ s t : State, step s = .next t ∧ s.flags.oneHot = true) ∧
    (cmpState.run = .running ∧ cmpState.fetch.op = 0xA7#8 ∧ cmpState.fetch.a.toNat < 8 ∧ cmpState.fetch.b.toNat < 8 ∧
      ∃ t, step cmpState = .next t) :=
  ⟨⟨at_ 0x00#8 [0x01#8] State.reset.regs ⟨true, false, false⟩, _, rfl, by decide⟩,
    by decide, by decide, by decide, by decide, _, rfl⟩
theorem witness_RegistersWrittenOnlyByNamedWriters :
    (∃ t, step ldiState = .next t ∧ t.reg 3 ≠ ldiState.reg 3) ∧ (∃ t, step pushState = .next t ∧ t.reg 7 ≠ pushState.reg 7) :=
  ⟨⟨_, rfl, by decide⟩, ⟨_, rfl, by decide⟩⟩
theorem witness_MemoryWrittenOnlyByPushAndCall :
    ∃ t, step pushState = .next t ∧ t.readMem 0x08#8 ≠ pushState.readMem 0x08#8 := ⟨_, rfl, by decide⟩
theorem witness_OutputGrowsOnlyByPrn :
    ∃ t, step (at_ 0x00#8 [0x47#8, 0x07#8]) = .next t ∧ t.output = [0xF4#8] := ⟨_, rfl, by decide⟩
theorem witness_DiagnosticsOnlyUnderSpin : ∃ t, step spinState = .next t ∧ t.diagnostics ≠ spinState.diagnostics :=
  ⟨_, rfl, by decide⟩
/-- Two memories in canonical form that read alike, built in different orders. -/
theorem witness_CanonicalMemoryIsUnique :
    Memory.wf (Memory.write (Memory.write [] 0x00#8 1#8) 0xFF#8 2#8) = true ∧
    Memory.wf (Memory.write (Memory.write [] 0xFF#8 2#8) 0x00#8 1#8) = true ∧
    ∀ x : Byte, Memory.read (Memory.write (Memory.write [] 0x00#8 1#8) 0xFF#8 2#8) x =
      Memory.read (Memory.write (Memory.write [] 0xFF#8 2#8) 0x00#8 1#8) x :=
  ⟨by decide, by decide, fun _ => rfl⟩
/-- StackIsLastInFirstOut where the two pops name different registers: PUSH R0, PUSH R6, POP R0, POP R6 swaps the two. -/
theorem witness_StackIsLastInFirstOut : (0x00#8 : Byte) ≠ 0x06#8 ∧
    ∃ s1 s2 s3 s4, exec (.push 0x00#8) swapState = .next s1 ∧ exec (.push 0x06#8) s1 = .next s2 ∧
      exec (.pop 0x00#8) s2 = .next s3 ∧ exec (.pop 0x06#8) s3 = .next s4 ∧
      (s4.reg 0, s4.reg 6, s4.reg 7) = (2#8, 1#8, 0x01#8) :=
  ⟨by decide, _, _, _, _, rfl, rfl, rfl, rfl, by decide⟩
/-- NextFetchSeesPushedByte with the store landing on the next opcode (V-PUSH-4) and, for CALL R7 (V-CALL-3), on the
opcode at the jump's target. -/
theorem witness_NextFetchSeesPushedByte : ((0x00#8 : Byte).toNat < 8 ∧ (0x07#8 : Byte).toNat < 8) ∧
    (∃ t, exec (.push 0x00#8) pushState = .next t ∧ t.pc = pushState.pushAddr ∧ t.fetch.op = 0x01#8 ∧
      t.pc + 1#8 ≠ pushState.pushAddr) ∧
    (∃ t, exec (.call 0x07#8) callState = .next t ∧ t.pc = callState.pushAddr ∧ t.fetch.op = 0x08#8) :=
  ⟨by decide, ⟨_, rfl, by decide⟩, ⟨_, rfl, by decide⟩⟩
/-- BusTransactionsAccountForMemory: a Running and a stopped step. -/
theorem witness_BusTransactionsAccountForMemory :
    (∃ t, step pushState = .next t ∧ pushState.run = .running) ∧
    (∃ t, step (pushState.setRun .halted) = .next t ∧ (pushState.setRun .halted).run ≠ .running) :=
  ⟨⟨_, rfl, rfl⟩, ⟨_, rfl, by decide⟩⟩
/-- Its clauses on a Running machine, by opcode and operand byte: PUSH, POP (a register other than R7, and R7), CALL, RET, an
illegal field at its lowest value, and an opcode with no data access. -/
theorem witness_BusTransactions_clauses :
    (pushState.readMem pushState.pc = 0x45#8 ∧ (pushState.readMem (pushState.pc + 1#8)).toNat < 8) ∧
    (∀ r ∈ [0x06#8, 0x07#8], (at_ 0x00#8 [0x46#8, r]).readMem 0x00#8 = 0x46#8 ∧
      (at_ 0x00#8 [0x46#8, r]).readMem 0x01#8 = r ∧ r.toNat < 8) ∧
    (callState.readMem callState.pc = 0x50#8 ∧ (callState.readMem (callState.pc + 1#8)).toNat = 7) ∧
    (at_ 0xFF#8 [0x11#8]).readMem 0xFF#8 = 0x11#8 ∧
    ((at_ 0x00#8 [0x46#8, 0x08#8]).readMem 0x00#8 ∈ [0x45#8, 0x46#8, 0x50#8] ∧
      8 ≤ ((at_ 0x00#8 [0x46#8, 0x08#8]).readMem 0x01#8).toNat) ∧
    unknownState.readMem unknownState.pc ∉ [0x45#8, 0x46#8, 0x50#8, 0x11#8] := by decide
/-- Both sides of PoliciesDifferOnlyInFaultingOrSpinning's last clause, after one step: run states that are equal, and an
unknown opcode under `fault` and under `spin` (V-DEC-1, V-DEC-2). -/
theorem witness_PoliciesDifferOnlyInFaultingOrSpinning :
    (∃ t u, runSteps 1 hltState = .next t ∧ runSteps 1 { hltState with policy := .spin } = .next u ∧ t.run = u.run) ∧
    (∃ t u, runSteps 1 unknownState = .next t ∧ runSteps 1 { unknownState with policy := .spin } = .next u ∧
      t.run = .faulted (.illegalOpcode 0x00#8 0x03#8) ∧ u.run = .running) :=
  ⟨⟨_, _, rfl, rfl, by decide⟩, ⟨_, _, rfl, rfl, by decide⟩⟩
theorem witness_LaunchPlacesImage : (List.replicate 256 (0x01#8 : Byte)).length ≤ 256 ∧
    256 < (List.replicate 257 (0x01#8 : Byte)).length :=
  ⟨List.length_replicate.le, by rw [List.length_replicate]; decide⟩
theorem witness_EveryStepKeepsInvariant : ∃ t, pushState.inv = true ∧ step pushState = .next t :=
  ⟨_, by decide, rfl⟩

end Sys2Proof.Tests
end

namespace Sys2Proof.Machine

/-! ## Policy and diagnostics (00_scope.md R5, 60_exceptions.md R152) -/

/-- No instruction touches the policy or the diagnostics, not even one that ends in the register-field fault. -/
theorem exec_policy_diagnostics {i : Instr} {s t : State} (h : exec i s = .next t) :
    t.policy = s.policy ∧ t.diagnostics = s.diagnostics := by
  rcases exec_cases h with ⟨_, _, _, rfl⟩ | ⟨-, hlegal⟩
  · simp
  · rcases hlegal with ⟨-, rfl⟩ | ⟨_, _, _, -, rfl⟩ | ⟨_, _, -, rfl⟩ | ⟨_, _, _, _, -, rfl⟩ | ⟨_, _, -, rfl⟩ |
      ⟨_, _, -, rfl⟩ | ⟨_, _, -, rfl⟩ | ⟨-, rfl⟩ | ⟨_, _, _, _, -, rfl⟩ | ⟨_, _, -, rfl⟩ <;> simp

/-- Everything an unknown opcode can do when it answers a next state, by policy (60_exceptions.md R151, R152). -/
theorem unknownOpcodeStep_cases {op : Byte} {s t : State} (h : unknownOpcodeStep op s = .next t) :
    (s.policy = .fault ∧ t = s.setRun (.faulted (.illegalOpcode op s.pc))) ∨
    (s.policy = .spin ∧ t = s.diagnose ⟨op, s.pc⟩) := by
  cases hp : s.policy with
  | fault =>
    rw [unknownOpcodeStep_fault hp] at h
    exact .inl ⟨rfl, (Host.Outcome.next.inj h).symm⟩
  | spin =>
    rw [unknownOpcodeStep_spin hp] at h
    exact .inr ⟨rfl, (Host.Outcome.next.inj h).symm⟩

/-- Settles O45: of everything a step can do, only the unknown opcode under `spin` emits a diagnostic, and its next state
is `State.diagnose` of the old one. -/
theorem diagnosticsOnlyUnderSpin : Obligations.DiagnosticsOnlyUnderSpin := by
  intro s t h
  rcases step_cases h with ⟨-, rfl⟩ | ⟨-, _, -, hexec⟩ | ⟨hrun, hunknown, -, hstep⟩
  · exact ⟨rfl, .inl rfl⟩
  · obtain ⟨hpolicy, hdiag⟩ := exec_policy_diagnostics hexec
    exact ⟨hpolicy, .inl hdiag⟩
  · rcases unknownOpcodeStep_cases hstep with ⟨-, rfl⟩ | ⟨hspin, rfl⟩
    · exact ⟨rfl, .inl rfl⟩
    · exact ⟨rfl, .inr ⟨hrun, hspin, hunknown, rfl⟩⟩

end Sys2Proof.Machine


namespace Sys2Proof.Machine

/-! ## Less and Greater (10_state.md R20, 45_jumps.md R142, R143) -/

/-- `s` with other Less and Greater flags. -/
def State.withOrder (s : State) (l g : Bool) : State := s.setFlags ⟨s.flags.equal, l, g⟩

/-- Two answers are next states that differ at most in Less and Greater. -/
def AgreeUpToOrder (x y : Result) : Prop := ∃ t l g, x = .next t ∧ y = .next (t.withOrder l g)

@[simp] theorem State.withOrder_reg (s : State) (l g : Bool) (r : RegIdx) : (s.withOrder l g).reg r = s.reg r := rfl

theorem State.withOrder_branch (s : State) (l g taken : Bool) (target : Byte) :
    (s.withOrder l g).branch taken target = (s.branch taken target).withOrder l g := by
  cases taken <;> rfl

theorem agreeUpToOrder_withRegField {field : OperandField} {opcode value : Byte} (s : State) (l g : Bool)
    {k k' : RegIdx → Result} (h : ∀ r, AgreeUpToOrder (k r) (k' r)) :
    AgreeUpToOrder (withRegField field opcode value s k) (withRegField field opcode value (s.withOrder l g) k') := by
  by_cases hv : value.toNat < 8
  · rw [withRegField_legal hv, withRegField_legal hv]
    exact h _
  · rw [withRegField_illegal hv, withRegField_illegal hv]
    exact ⟨_, l, g, rfl, rfl⟩

/-- The ALU reads registers only, so both runs take the same one of its three outcomes, and CMP's flags are equal. -/
theorem agreeUpToOrder_aluInstr (tag ra rb : Byte) (s : State) (l g : Bool) :
    AgreeUpToOrder (aluInstr tag ra rb s) (aluInstr tag ra rb (s.withOrder l g)) := by
  unfold aluInstr withRegAB
  refine agreeUpToOrder_withRegField s l g fun a => ?_
  refine agreeUpToOrder_withRegField s l g fun b => ?_
  simp only [State.withOrder_reg]
  cases alu tag (s.reg a) (s.reg b) with
  | value v => exact ⟨_, l, g, rfl, rfl⟩
  | flags f => exact ⟨_, f.less, f.greater, rfl, rfl⟩
  | unsupported => exact ⟨_, l, g, rfl, rfl⟩

/-- No instruction reads Less or Greater: the conditional jumps test Equal alone. -/
theorem agreeUpToOrder_exec (i : Instr) (s : State) (l g : Bool) :
    AgreeUpToOrder (exec i s) (exec i (s.withOrder l g)) := by
  cases i with
  | hlt | ret => exact ⟨_, l, g, rfl, rfl⟩
  | add | mul | cmp => exact agreeUpToOrder_aluInstr _ _ _ s l g
  | ldi | prn | push | pop | call | jmp =>
    simp only [exec, execLdi, execPrn, execPush, execPop, execCall, execJmp, withRegA]
    exact agreeUpToOrder_withRegField s l g fun _ => ⟨_, l, g, rfl, rfl⟩
  | jeq | jne =>
    simp only [exec, execJeq, execJne, withRegA, State.withOrder_branch]
    exact agreeUpToOrder_withRegField s l g fun _ => ⟨_, l, g, rfl, rfl⟩

theorem agreeUpToOrder_unknownOpcodeStep (op : Byte) (s : State) (l g : Bool) :
    AgreeUpToOrder (unknownOpcodeStep op s) (unknownOpcodeStep op (s.withOrder l g)) := by
  have hpolicy : (s.withOrder l g).policy = s.policy := rfl
  cases hp : s.policy with
  | fault =>
    rw [unknownOpcodeStep_fault hp, unknownOpcodeStep_fault (hpolicy.trans hp)]
    exact ⟨_, l, g, rfl, rfl⟩
  | spin =>
    rw [unknownOpcodeStep_spin hp, unknownOpcodeStep_spin (hpolicy.trans hp)]
    exact ⟨_, l, g, rfl, rfl⟩

/-- The step lemma of the two-run invariant. -/
theorem agreeUpToOrder_step (s : State) (l g : Bool) : AgreeUpToOrder (step s) (step (s.withOrder l g)) := by
  have hrun : (s.withOrder l g).run = s.run := rfl
  by_cases hr : s.run = .running
  · have hfetch : (s.withOrder l g).fetch = s.fetch := rfl
    simp only [step, hrun, hr, hfetch]
    cases decode s.fetch with
    | ok i => exact agreeUpToOrder_exec i s l g
    | error e =>
      obtain ⟨op⟩ := e
      exact agreeUpToOrder_unknownOpcodeStep op s l g
  · rw [step_stopped hr, step_stopped (hrun ▸ hr)]
    exact ⟨s, l, g, rfl, rfl⟩

theorem agreeUpToOrder_runSteps (k : Nat) (s : State) (l g : Bool) :
    AgreeUpToOrder (runSteps k s) (runSteps k (s.withOrder l g)) := by
  induction k generalizing s l g with
  | zero => exact ⟨s, l, g, rfl, rfl⟩
  | succ k ih =>
    obtain ⟨t, l', g', hs, hs'⟩ := agreeUpToOrder_step s l g
    rw [runSteps_succ hs, runSteps_succ hs']
    exact ih t l' g'

/-- Settles O54, by induction on `k` over the two-run invariant `AgreeUpToOrder`. -/
theorem lessAndGreaterAreUnobservable : Obligations.LessAndGreaterAreUnobservable := by
  intro k s l g
  obtain ⟨t, l', g', hs, hs'⟩ := agreeUpToOrder_runSteps k s l g
  exact ⟨t, t.withOrder l' g', hs, hs', rfl⟩

end Sys2Proof.Machine

namespace Sys2Proof

/-! ## Operand bytes and legal fields (30_encoding.md R63, R66) -/

/-- The first operand byte of a decoded instruction is the window's byte a. -/
theorem head_operands_of_decode {w : Window} {i : Instr} (h : decode w = .ok i) {a : Byte}
    (ha : i.operands.head? = some a) : a = w.a := by
  rcases decode_cases w with ⟨-, hd⟩ | ⟨-, hd⟩ | ⟨-, hd⟩ | ⟨-, hd⟩ | ⟨-, hd⟩ | ⟨-, hd⟩ | ⟨-, hd⟩ | ⟨-, hd⟩ |
    ⟨-, hd⟩ | ⟨-, hd⟩ | ⟨-, hd⟩ | ⟨-, hd⟩ | ⟨-, hd⟩ | ⟨-, hd⟩ <;> rw [hd] at h <;> cases h <;> cases ha <;> rfl

/-- An instruction is well formed exactly when no field check of it fails (60_exceptions.md R153). -/
theorem firstIllegalField_eq_none_iff (i : Instr) : i.firstIllegalField = none ↔ i.wellFormed = true := by
  cases i with
  | hlt | ret => simp [Instr.firstIllegalField, Instr.wellFormed]
  | ldi | prn | push | pop | call | jmp | jeq | jne => simp [Instr.firstIllegalField, Instr.wellFormed]
  | add ra | mul ra | cmp ra => cases ha : legalField ra <;> simp [Instr.firstIllegalField, Instr.wellFormed, ha]

/-- Only HLT has the opcode 0x01. -/
theorem opcode_eq_hlt_iff (i : Instr) : i.opcode = 0x01#8 ↔ i = .hlt := by
  cases i <;> simp [Instr.opcode]

end Sys2Proof

namespace Sys2Proof.Machine

/-! ## What an instruction changes, field by field -/

/-- Every instruction answers a next state (60_exceptions.md R156): the two-run lemma gives it. -/
theorem exec_next (i : Instr) (s : State) : ∃ t, exec i s = .next t := by
  obtain ⟨t, _, _, h, -⟩ := agreeUpToOrder_exec i s false false
  exact ⟨t, h⟩

/-- The cases of `exec_cases` with names: the next state each instruction can answer. ADD's and MUL's value, CMP's two
comparands and a jump's target are not recorded. -/
inductive ExecEffect (s : State) : Instr → State → Prop where
  | fault {i f v} (h : i.firstIllegalField = some (f, v)) :
    ExecEffect s i (s.setRun (.faulted (.illegalRegisterIndex f v i.opcode s.pc)))
  | hlt : ExecEffect s .hlt ((s.setRun .halted).setPc (s.pc + 1#8))
  | ldi {ra imm} (h : ra.toNat < 8) : ExecEffect s (.ldi ra imm) ((s.setReg ⟨ra.toNat, h⟩ imm).setPc (s.pc + 3#8))
  | prn {ra} (h : ra.toNat < 8) : ExecEffect s (.prn ra) ((s.out (s.reg ⟨ra.toNat, h⟩)).setPc (s.pc + 2#8))
  | add {ra rb v} (h : ra.toNat < 8) : ExecEffect s (.add ra rb) ((s.setReg ⟨ra.toNat, h⟩ v).setPc (s.pc + 3#8))
  | mul {ra rb v} (h : ra.toNat < 8) : ExecEffect s (.mul ra rb) ((s.setReg ⟨ra.toNat, h⟩ v).setPc (s.pc + 3#8))
  | push {ra} (h : ra.toNat < 8) : ExecEffect s (.push ra) (((s.setReg 7 (s.reg 7 - 1#8)).writeMem (s.reg 7 - 1#8)
      ((s.setReg 7 (s.reg 7 - 1#8)).reg ⟨ra.toNat, h⟩)).setPc (s.pc + 2#8))
  | pop {ra} (h : ra.toNat < 8) : ExecEffect s (.pop ra) (((s.setReg ⟨ra.toNat, h⟩ (s.readMem (s.reg 7))).setReg 7
      ((s.setReg ⟨ra.toNat, h⟩ (s.readMem (s.reg 7))).reg 7 + 1#8)).setPc (s.pc + 2#8))
  | call {ra} (h : ra.toNat < 8) : ExecEffect s (.call ra) (((s.setReg 7 (s.reg 7 - 1#8)).writeMem (s.reg 7 - 1#8)
      (s.pc + 2#8)).setPc ((s.setReg 7 (s.reg 7 - 1#8)).reg ⟨ra.toNat, h⟩))
  | ret : ExecEffect s .ret ((s.setPc (s.readMem (s.reg 7))).setReg 7 (s.reg 7 + 1#8))
  | cmp {ra rb} (u v) : ExecEffect s (.cmp ra rb) ((s.setFlags (compareFlags u v)).setPc (s.pc + 3#8))
  | jmp {ra} (p) : ExecEffect s (.jmp ra) (s.setPc p)
  | jeq {ra} (p) : ExecEffect s (.jeq ra) (s.setPc p)
  | jne {ra} (p) : ExecEffect s (.jne ra) (s.setPc p)

theorem execEffect_of_exec {i : Instr} {s t : State} (h : exec i s = .next t) : ExecEffect s i t := by
  rcases exec_cases h with ⟨_, _, hill, rfl⟩ | ⟨-, hlegal⟩
  · exact .fault hill
  · rcases hlegal with ⟨rfl, rfl⟩ | ⟨_, _, hr, rfl, rfl⟩ | ⟨_, hr, rfl, rfl⟩ | ⟨_, _, _, hr, rfl | rfl, rfl⟩ |
      ⟨_, hr, rfl, rfl⟩ | ⟨_, hr, rfl, rfl⟩ | ⟨_, hr, rfl, rfl⟩ | ⟨rfl, rfl⟩ | ⟨_, _, u, v, rfl, rfl⟩ |
      ⟨_, p, rfl | rfl | rfl, rfl⟩
    · exact .hlt
    · exact .ldi hr
    · exact .prn hr
    · exact .add hr
    · exact .mul hr
    · exact .push hr
    · exact .pop hr
    · exact .call hr
    · exact .ret
    · exact .cmp u v
    · exact .jmp p
    · exact .jeq p
    · exact .jne p

/-- Settles O10: the fault case needs an illegal field, and each other instruction sets `pc` past its own bytes. -/
theorem straightLineAdvancesByLength : Obligations.StraightLineAdvancesByLength := by
  intro i s hwf hct
  obtain ⟨t, h⟩ := exec_next i s
  refine ⟨t, h, ?_⟩
  cases execEffect_of_exec h with
  | fault hill => simp [(firstIllegalField_eq_none_iff i).mpr hwf] at hill
  | call | ret | jmp | jeq | jne => cases hct
  | hlt | ldi | prn | add | mul | push | pop | cmp => rfl

/-- HLT is the one instruction that reaches Halted (41_machine_control_and_data.md R100). -/
theorem exec_halted_iff {i : Instr} {s t : State} (hrun : s.run = .running) (h : exec i s = .next t) :
    t.run = .halted ↔ i = .hlt := by
  cases execEffect_of_exec h with
  | fault hill =>
    have : i ≠ .hlt := by rintro rfl; cases hill
    simp [this]
  | _ => simp [hrun]

/-- Flags are as they were, or CMP has set those of a comparison. -/
theorem exec_flags {i : Instr} {s t : State} (h : exec i s = .next t) :
    t.flags = s.flags ∨ (i.opcode = 0xA7#8 ∧ ∃ u v, t.flags = compareFlags u v) := by
  cases execEffect_of_exec h with
  | cmp u v => exact .inr ⟨rfl, u, v, rfl⟩
  | _ => exact .inl rfl

/-- The output is as it was, or PRN has appended its register. -/
theorem exec_output {i : Instr} {s t : State} (h : exec i s = .next t) :
    t.output = s.output ∨ ∃ ra, ∃ hr : ra.toNat < 8, i = .prn ra ∧ t.output = s.output ++ [s.reg ⟨ra.toNat, hr⟩] := by
  cases execEffect_of_exec h with
  | prn hr => exact .inr ⟨_, hr, rfl, rfl⟩
  | _ => exact .inl rfl

/-- A register that changes is operand a of LDI, ADD, MUL or POP, or SP in a stack instruction (10_state.md R11, R13). -/
theorem exec_reg {i : Instr} {s t : State} {r : RegIdx} (h : exec i s = .next t) (hne : t.reg r ≠ s.reg r) :
    (i.opcode ∈ [0x82#8, 0xA0#8, 0xA2#8, 0x46#8] ∧ ∃ a, i.operands.head? = some a ∧ a.toNat = r.val) ∨
    (r = 7 ∧ i.opcode ∈ [0x45#8, 0x46#8, 0x50#8, 0x11#8]) := by
  cases execEffect_of_exec h with
  | fault | hlt | prn | cmp | jmp | jeq | jne => exact absurd rfl hne
  | ldi | add | mul =>
    obtain ⟨rfl, -⟩ : r = _ ∧ _ := by simpa using hne
    exact .inl ⟨by simp [Instr.opcode], _, rfl, rfl⟩
  | push | call | ret =>
    obtain ⟨rfl, -⟩ : r = 7 ∧ _ := by simpa using hne
    exact .inr ⟨rfl, by simp [Instr.opcode]⟩
  | pop =>
    by_cases hsp : r = 7
    · exact .inr ⟨hsp, by simp [Instr.opcode]⟩
    · obtain ⟨rfl, -⟩ : r = _ ∧ _ := by simpa [hsp] using hne
      exact .inl ⟨by simp [Instr.opcode], _, rfl, rfl⟩

theorem compareFlags_oneHot (u v : Byte) : (compareFlags u v).oneHot = true := by
  rcases Nat.lt_trichotomy u.toNat v.toNat with h | h | h
  · simp [Flags.oneHot, compareFlags, h, h.ne, h.le]
  · simp [Flags.oneHot, compareFlags, h]
  · simp [Flags.oneHot, compareFlags, h, h.ne', h.le]

/-! ## What a step changes -/

/-- A step changes registers, flags or output only by running a decoded instruction. -/
theorem step_frame_or_exec {s t : State} (h : step s = .next t) :
    ((∀ r, t.reg r = s.reg r) ∧ t.flags = s.flags ∧ t.output = s.output) ∨
    (s.run = .running ∧ ∃ i, decode s.fetch = .ok i ∧ exec i s = .next t) := by
  rcases step_cases h with ⟨-, rfl⟩ | hexec | ⟨-, -, -, hunknown⟩
  · exact .inl ⟨fun _ => rfl, rfl, rfl⟩
  · exact .inr hexec
  · rcases unknownOpcodeStep_cases hunknown with ⟨-, rfl⟩ | ⟨-, rfl⟩ <;> exact .inl ⟨fun _ => rfl, rfl, rfl⟩

/-- A Running machine runs the instruction it decodes (40_fetch_decode_execute.md R80). -/
theorem step_of_decode {s : State} {i : Instr} (hrun : s.run = .running) (hd : decode s.fetch = .ok i) :
    step s = exec i s := by
  simp only [step, hrun, hd]

/-- Settles O39: HLT is the only instruction that halts, and an unknown opcode faults or spins. -/
theorem haltedReachedOnlyByHlt : Obligations.HaltedReachedOnlyByHlt := by
  intro s t hrun h
  rw [← State.fetch_op, State.endedNormally, decide_eq_true_iff]
  rcases step_cases h with ⟨hstopped, -⟩ | ⟨-, i, hd, hexec⟩ | ⟨-, hunknown, -, hstep⟩
  · exact absurd hrun hstopped
  · rw [← opcode_of_decode hd, opcode_eq_hlt_iff, exec_halted_iff hrun hexec]
  · have hop : s.fetch.op ≠ 0x01#8 := by
      intro heq
      simp [heq, knownOpcodes] at hunknown
    rcases unknownOpcodeStep_cases hstep with ⟨-, rfl⟩ | ⟨-, rfl⟩ <;> simp [hop, hrun]

/-- Settles O40: of what a step can run, `exec_flags` leaves only CMP. -/
theorem flagsWrittenOnlyByCmp : Obligations.FlagsWrittenOnlyByCmp := by
  intro s t h hne
  rcases step_frame_or_exec h with ⟨-, hflags, -⟩ | ⟨hrun, i, hd, hexec⟩
  · exact absurd hflags hne
  · rcases exec_flags hexec with hflags | ⟨hop, -⟩
    · exact absurd hflags hne
    · exact ⟨hrun, (opcode_of_decode hd).symm.trans hop⟩

/-- CMP with legal fields leaves a comparison's flags, whatever they were before. -/
theorem step_cmp_flags {s t : State} (h : step s = .next t) (hrun : s.run = .running) (hop : s.fetch.op = 0xA7#8)
    (ha : s.fetch.a.toNat < 8) (hb : s.fetch.b.toNat < 8) : ∃ u v, t.flags = compareFlags u v := by
  have hd : decode s.fetch = .ok (.cmp s.fetch.a s.fetch.b) := by simp [decode, hop]
  rw [step_of_decode hrun hd, exec, execCmp_legal ha hb] at h
  cases h
  exact ⟨_, _, rfl⟩

/-- Settles O41: flags that a step changes are a comparison's, and a comparison sets exactly one. -/
theorem oneFlagTrueIsKept : Obligations.OneFlagTrueIsKept := by
  intro s t h
  constructor
  · intro hs
    rcases step_frame_or_exec h with ⟨-, hflags, -⟩ | ⟨-, i, -, hexec⟩
    · rwa [hflags]
    · rcases exec_flags hexec with hflags | ⟨-, u, v, hflags⟩
      · rwa [hflags]
      · rw [hflags]
        exact compareFlags_oneHot u v
  · intro hrun hop ha hb
    obtain ⟨u, v, hflags⟩ := step_cmp_flags h hrun hop ha hb
    rw [hflags]
    exact compareFlags_oneHot u v

/-- Settles O42: `exec_reg`, read off the fetched window. -/
theorem registersWrittenOnlyByNamedWriters : Obligations.RegistersWrittenOnlyByNamedWriters := by
  intro s t r h hne
  rcases step_frame_or_exec h with ⟨hreg, -, -⟩ | ⟨-, i, hd, hexec⟩
  · exact absurd (hreg r) hne
  · rw [← opcode_of_decode hd]
    rcases exec_reg hexec hne with ⟨hop, a, ha, har⟩ | hsp
    · rw [head_operands_of_decode hd ha] at har
      exact .inl ⟨hop, har⟩
    · exact .inr hsp

/-- Settles O44: `exec_output`, read off the fetched window. -/
theorem outputGrowsOnlyByPrn : Obligations.OutputGrowsOnlyByPrn := by
  intro s t h
  rcases step_frame_or_exec h with ⟨-, -, hout⟩ | ⟨hrun, i, hd, hexec⟩
  · exact .inl hout
  · rcases exec_output hexec with hout | ⟨ra, hr, rfl, hout⟩
    · exact .inl hout
    · obtain rfl : ra = s.fetch.a := head_operands_of_decode hd rfl
      exact .inr ⟨hrun, (opcode_of_decode hd).symm, hr, hout⟩

/-! ## Reset and launch (10_state.md R28 to R32, 70_reset_and_hazards.md R181 to R183) -/

/-- Settles O49: the reset record's own fields, and the general rules for the fetched opcode and the push address. -/
theorem resetValuesOfPcRunAndStackPointer : Obligations.ResetValuesOfPcRunAndStackPointer :=
  ⟨rfl, rfl, rfl, State.fetch_op _, State.pushAddr_eq _⟩

/-- A Running machine with canonical memory and no diagnostics meets the invariant. -/
theorem inv_of_running {s : State} (hmem : Memory.wf s.mem = true) (hrun : s.run = .running)
    (hdiag : s.diagnostics = []) : s.inv = true := by
  simp [State.inv, State.runRecordTrue, hmem, hrun, hdiag]

/-- Settles O53: `inv_of_running` at the empty memory. -/
theorem resetMeetsInvariant : Obligations.ResetMeetsInvariant := inv_of_running Memory.wf_reset rfl rfl

/-- Memory loaded from address 0: the bytes of the sequence, and past its end the old memory. -/
theorem Memory.read_writeFrom_zero (bytes : List Byte) (m : Memory) (h : bytes.length ≤ 256) (x : Byte) :
    Memory.read (Memory.writeFrom 0 bytes m) x = bytes.getD x.toNat (Memory.read m x) := by
  rw [Memory.read_writeFrom bytes 0 m (by omega)]
  by_cases hx : x.toNat < bytes.length <;> simp [hx, List.getD_eq_getElem?_getD]

@[simp] theorem State.applyReset_sp (v : ResetValues) (s : State) : (s.applyReset v).reg 7 = 0xF4#8 := by
  simp [State.applyReset, State.reg, Config.spReset]

@[simp] theorem State.applyReset_reg (v : ResetValues) (s : State) (r : Fin 7) :
    (s.applyReset v).reg r.castSucc = v.regs[r] := by
  simp [State.applyReset, State.reg]

/-- Boot, in one record: after reset, the image stands in memory over INIT_MEM. -/
theorem launch_of_length_le (p : LaunchParams) {image : List Byte} (h : image.length ≤ 256) :
    State.launch p image = some { (State.powerOn p).applyReset p.reset with
      mem := Memory.writeFrom 0 image (Memory.writeFrom 0 p.mem.toList []) } := if_pos h

/-- Settles O51: the image is read through two loads from address 0, itself over INIT_MEM; reset gives the rest. -/
theorem launchPlacesImage : Obligations.LaunchPlacesImage := by
  intro p image
  refine ⟨fun h => ⟨_, launch_of_length_le p h, fun x => ?_, rfl, rfl, ?_, fun r => ?_, rfl, rfl, rfl, ?_⟩, fun h => ?_⟩
  · exact (Memory.read_writeFrom_zero image _ h x).trans
      (by rw [Memory.read_writeFrom_zero _ _ (by simp)]; rfl)
  · exact State.applyReset_sp p.reset (State.powerOn p)
  · exact State.applyReset_reg p.reset (State.powerOn p) r
  · exact inv_of_running (Memory.wf_writeFrom _ 0 (Memory.wf_writeFrom _ 0 rfl)) rfl rfl
  · exact if_neg (Nat.not_le.mpr h)

end Sys2Proof.Machine

namespace Sys2Proof

/-! ## The stack instructions' opcodes (30_encoding.md R67) -/

theorem decode_push {w : Window} (h : w.op = 0x45#8) : decode w = .ok (.push w.a) := by simp [decode, h]
theorem decode_pop {w : Window} (h : w.op = 0x46#8) : decode w = .ok (.pop w.a) := by simp [decode, h]
theorem decode_call {w : Window} (h : w.op = 0x50#8) : decode w = .ok (.call w.a) := by simp [decode, h]
theorem decode_ret {w : Window} (h : w.op = 0x11#8) : decode w = .ok .ret := by simp [decode, h]

end Sys2Proof

namespace Sys2Proof.Machine

/-! ## Where memory changes (20_memory.md R42, R43) -/

/-- A byte that an instruction changes is the one PUSH or CALL stores at SP - 1. -/
theorem exec_readMem {i : Instr} {s t : State} {x : Byte} (h : exec i s = .next t) (hne : t.readMem x ≠ s.readMem x) :
    i.opcode ∈ [0x45#8, 0x50#8] ∧ x = s.reg 7 - 1#8 := by
  cases execEffect_of_exec h with
  | push | call =>
    obtain ⟨hx, -⟩ : x = s.reg 7 - 1#8 ∧ _ := by simpa using hne
    exact ⟨by simp [Instr.opcode], hx⟩
  | _ => exact absurd rfl hne

theorem unknownOpcodeStep_mem {op : Byte} {s t : State} (h : unknownOpcodeStep op s = .next t) : t.mem = s.mem := by
  rcases unknownOpcodeStep_cases h with ⟨-, rfl⟩ | ⟨-, rfl⟩ <;> rfl

/-- Settles O43: `exec_readMem`, since neither a stopped machine nor an unknown opcode touches memory. -/
theorem memoryWrittenOnlyByPushAndCall : Obligations.MemoryWrittenOnlyByPushAndCall := by
  intro s t x h hne
  rcases step_cases h with ⟨-, rfl⟩ | ⟨hrun, i, hd, hexec⟩ | ⟨-, -, -, hunknown⟩
  · exact absurd rfl hne
  · obtain ⟨hop, hx⟩ := exec_readMem hexec hne
    rw [opcode_of_decode hd, State.fetch_op] at hop
    exact ⟨hrun, hop, hx.trans (State.pushAddr_eq s).symm, State.pushAddr_eq s⟩
  · exact absurd (congrArg (Memory.read · x) (unknownOpcodeStep_mem hunknown)) hne

/-! ## A store seen by the next fetch (20_memory.md R55, 70_reset_and_hazards.md R192) -/

/-- When memory has changed at one address only, the fetched window shows that byte wherever it reaches it. -/
theorem State.fetch_of_store {s t : State} {p v : Byte} (h : ∀ x, t.readMem x = if x = p then v else s.readMem x) :
    (t.fetch.op = if t.pc = p then v else s.readMem t.pc) ∧
    (t.fetch.a = if t.pc + 1#8 = p then v else s.readMem (t.pc + 1#8)) ∧
    (t.fetch.b = if t.pc + 2#8 = p then v else s.readMem (t.pc + 2#8)) := by
  rw [State.fetch_op, State.fetch_a, State.fetch_b]
  exact ⟨h _, h _, h _⟩

/-- Settles O47: PUSH and CALL each store one byte, at `pushAddr`. -/
theorem nextFetchSeesPushedByte : Obligations.NextFetchSeesPushedByte := by
  intro ra s h
  constructor
  · exact ⟨_, execPush_legal h, rfl, State.fetch_of_store fun x => by simp⟩
  · exact ⟨_, execCall_legal h, rfl, State.fetch_of_store fun x => by simp⟩

/-! ## The instruction's data access (20_memory.md R42, 60_exceptions.md R153) -/

theorem dataAccess_length_le (i : Instr) (s : State) : (dataAccess i s).length ≤ 1 := by
  cases i with
  | push | pop | call =>
    simp only [dataAccess]
    split <;> simp
  | ret => simp [dataAccess]
  | _ => exact Nat.zero_le 1

/-- A data access that reads carries the byte memory holds. -/
theorem eq_readMem_of_read_mem_dataAccess {i : Instr} {s : State} {x v : Byte} (h : .read x v ∈ dataAccess i s) :
    v = s.readMem x := by
  cases i with
  | push | call =>
    simp only [dataAccess] at h
    split at h <;> simp at h
  | pop =>
    obtain ⟨-, rfl, rfl⟩ := by simpa [dataAccess] using h
    rfl
  | ret =>
    obtain ⟨rfl, rfl⟩ := by simpa [dataAccess] using h
    rfl
  | _ => cases h

theorem dataAccess_of_firstIllegalField {i : Instr} {s : State} {p : OperandField × Byte}
    (h : i.firstIllegalField = some p) : dataAccess i s = [] := by
  cases i with
  | push ra | pop ra | call ra =>
    have hra : ¬ ra.toNat < 8 := by
      intro hlegal
      simp [Instr.firstIllegalField, legalField, hlegal] at h
    simp [dataAccess, hra]
  | ret => cases h
  | _ => rfl

/-- Only the four stack instructions access data memory. -/
theorem dataAccess_of_opcode_notMem {i : Instr} {s : State} (h : i.opcode ∉ [0x45#8, 0x46#8, 0x50#8, 0x11#8]) :
    dataAccess i s = [] := by
  cases i with
  | push | pop | call | ret => simp [Instr.opcode] at h
  | _ => rfl

theorem dataAccess_push {ra : Byte} {s t : State} (hr : ra.toNat < 8) (h : exec (.push ra) s = .next t) :
    dataAccess (.push ra) s = [.write (s.reg 7 - 1#8) (t.reg ⟨ra.toNat, hr⟩)] := by
  rw [exec, execPush_legal hr] at h
  cases h
  simp [dataAccess, hr]

theorem dataAccess_call {ra : Byte} (s : State) (hr : ra.toNat < 8) :
    dataAccess (.call ra) s = [.write (s.reg 7 - 1#8) (s.pc + 2#8)] := by
  simp [dataAccess, hr, addrPlus_eq]

theorem dataAccess_pop {ra : Byte} (s : State) (hr : ra.toNat < 8) :
    dataAccess (.pop ra) s = [.read (s.reg 7) (s.readMem (s.reg 7))] := by
  simp [dataAccess, hr]

/-- POP's register holds the byte loaded, and one more than it when the register is SP (43_stack.md R121, D11). -/
theorem exec_pop_reg {ra : Byte} {s t : State} (hr : ra.toNat < 8) (h : exec (.pop ra) s = .next t) :
    (ra.toNat ≠ 7 → t.reg ⟨ra.toNat, hr⟩ = s.readMem (s.reg 7)) ∧
    (ra.toNat = 7 → t.reg 7 = s.readMem (s.reg 7) + 1#8) := by
  rw [exec, execPop_legal hr] at h
  cases h
  constructor
  · intro h7
    simp [Fin.ext_iff, h7]
  · intro h7
    simp [h7]

theorem dataAccess_ret {s t : State} (h : exec .ret s = .next t) : dataAccess .ret s = [.read (s.reg 7) t.pc] := by
  rw [exec, execRet_eq] at h
  cases h
  rfl

/-- What an instruction does to memory is what its data access does. -/
theorem exec_mem {i : Instr} {s t : State} (h : exec i s = .next t) :
    t.mem = (dataAccess i s).foldl BusEvent.apply s.mem := by
  cases execEffect_of_exec h with
  | fault hill =>
    rw [dataAccess_of_firstIllegalField hill]
    rfl
  | push hr =>
    rw [dataAccess_push hr h]
    rfl
  | pop hr =>
    rw [dataAccess_pop s hr]
    rfl
  | call hr =>
    rw [dataAccess_call s hr]
    rfl
  | _ => rfl

/-! ## The step's transactions (40_fetch_decode_execute.md R82, R93) -/

/-- The transactions of a Running step that follow the window reads. -/
def State.dataEvents (s : State) : List BusEvent :=
  match decode s.fetch with
  | .ok i => dataAccess i s
  | .error _ => []

theorem State.dataEvents_of_decode {s : State} {i : Instr} (h : decode s.fetch = .ok i) :
    s.dataEvents = dataAccess i s := by
  simp only [State.dataEvents, h]

theorem State.dataEvents_cases (s : State) :
    (∃ i, decode s.fetch = .ok i ∧ s.dataEvents = dataAccess i s) ∨ s.dataEvents = [] := by
  cases hd : decode s.fetch with
  | ok i => exact .inl ⟨i, rfl, State.dataEvents_of_decode hd⟩
  | error e => exact .inr (by simp only [State.dataEvents, hd])

theorem State.windowReads_eq (s : State) :
    s.windowReads = [.read s.pc (s.readMem s.pc), .read (s.pc + 1#8) (s.readMem (s.pc + 1#8)),
      .read (s.pc + 2#8) (s.readMem (s.pc + 2#8))] := by
  simp only [State.windowReads, State.fetch_op, State.fetch_a, State.fetch_b, addrPlus_eq]

theorem State.busEvents_running {s : State} (h : s.run = .running) : s.busEvents = s.windowReads ++ s.dataEvents := by
  simp only [State.busEvents, State.dataEvents, h]
  cases decode s.fetch with
  | ok i => rfl
  | error e => simp

theorem State.busEvents_stopped {s : State} (h : s.run ≠ .running) : s.busEvents = [] := by
  cases hrun : s.run with
  | running => exact absurd hrun h
  | halted | faulted => simp only [State.busEvents, hrun]

/-- The transactions of a step account for memory after it: the window reads leave memory as it is. -/
theorem step_mem {s t : State} (h : step s = .next t) : t.mem = s.busEvents.foldl BusEvent.apply s.mem := by
  rcases step_cases h with ⟨hstopped, rfl⟩ | ⟨hrun, i, hd, hexec⟩ | ⟨hrun, -, hd, hunknown⟩
  · rw [State.busEvents_stopped hstopped]
    rfl
  · rw [State.busEvents_running hrun, State.dataEvents_of_decode hd]
    exact exec_mem hexec
  · rw [State.busEvents_running hrun, State.dataEvents, hd]
    exact unknownOpcodeStep_mem hunknown

theorem eq_readMem_of_read_mem_busEvents {s : State} {x v : Byte} (h : .read x v ∈ s.busEvents) :
    v = s.readMem x := by
  by_cases hrun : s.run = .running
  · rw [State.busEvents_running hrun, List.mem_append] at h
    rcases h with hwindow | hdata
    · simp only [State.windowReads_eq, List.mem_cons, BusEvent.read.injEq, List.not_mem_nil, or_false] at hwindow
      rcases hwindow with ⟨rfl, rfl⟩ | ⟨rfl, rfl⟩ | ⟨rfl, rfl⟩ <;> rfl
    · rcases s.dataEvents_cases with ⟨i, -, hi⟩ | hnil
      · exact eq_readMem_of_read_mem_dataAccess (hi ▸ hdata)
      · simp [hnil] at hdata
  · simp [State.busEvents_stopped hrun] at h

theorem State.dataEvents_length_le (s : State) : s.dataEvents.length ≤ 1 := by
  rcases s.dataEvents_cases with ⟨i, -, hi⟩ | hnil
  · exact hi ▸ dataAccess_length_le i s
  · simp [hnil]

theorem State.dataEvents_of_op_notMem {s : State} (h : s.fetch.op ∉ [0x45#8, 0x46#8, 0x50#8, 0x11#8]) :
    s.dataEvents = [] := by
  rcases s.dataEvents_cases with ⟨i, hd, hi⟩ | hnil
  · rw [hi]
    exact dataAccess_of_opcode_notMem (opcode_of_decode hd ▸ h)
  · exact hnil

/-- PUSH, POP and CALL with an illegal field fault before their data access. -/
theorem State.dataEvents_of_illegal {s : State} (hop : s.fetch.op ∈ [0x45#8, 0x46#8, 0x50#8])
    (ha : 8 ≤ s.fetch.a.toNat) : s.dataEvents = [] := by
  have hillegal : ¬ s.fetch.a.toNat < 8 := Nat.not_lt.mpr ha
  simp only [List.mem_cons, List.not_mem_nil, or_false] at hop
  rcases hop with hop | hop | hop
  · rw [State.dataEvents_of_decode (decode_push hop)]
    exact dif_neg hillegal
  · rw [State.dataEvents_of_decode (decode_pop hop)]
    exact if_neg hillegal
  · rw [State.dataEvents_of_decode (decode_call hop)]
    exact if_neg hillegal

/-- Settles O48: `dataEvents` is the part of the transactions that R42's table fixes, read off the fetched window. -/
theorem busTransactionsAccountForMemory : Obligations.BusTransactionsAccountForMemory := by
  intro s t h
  refine ⟨step_mem h, fun x v => eq_readMem_of_read_mem_busEvents, fun hrun => ?_, State.busEvents_stopped⟩
  have hexec {i : Instr} (hd : decode s.fetch = .ok i) : exec i s = .next t := (step_of_decode hrun hd).symm.trans h
  refine ⟨s.dataEvents, s.dataEvents_length_le, s.windowReads_eq ▸ State.busEvents_running hrun, ?_⟩
  rw [← State.fetch_op, ← State.fetch_a]
  refine ⟨fun hop hr => ?_, fun hop hr => ?_, fun hop hr => ?_, fun hop => ?_, State.dataEvents_of_illegal,
    State.dataEvents_of_op_notMem⟩
  · have hd := decode_push hop
    exact (State.dataEvents_of_decode hd).trans (dataAccess_push hr (hexec hd))
  · have hd := decode_pop hop
    exact ⟨_, (State.dataEvents_of_decode hd).trans (dataAccess_pop s hr), exec_pop_reg hr (hexec hd)⟩
  · exact (State.dataEvents_of_decode (decode_call hop)).trans (dataAccess_call s hr)
  · have hd := decode_ret hop
    exact (State.dataEvents_of_decode hd).trans (dataAccess_ret (hexec hd))

end Sys2Proof.Machine

namespace Sys2Proof

/-! ## Decoding and encoding (30_encoding.md R60 to R71) -/

/-- The decoder answers an instruction exactly when the window begins with the instruction's bytes. -/
theorem decode_eq_ok_iff (w : Window) (i : Instr) : decode w = .ok i ↔ encode i <+: [w.op, w.a, w.b] := by
  rw [encode, List.cons_prefix_cons]
  constructor
  · intro h
    refine ⟨opcode_of_decode h, ?_⟩
    rcases decode_cases w with ⟨-, hd⟩ | ⟨-, hd⟩ | ⟨-, hd⟩ | ⟨-, hd⟩ | ⟨-, hd⟩ | ⟨-, hd⟩ | ⟨-, hd⟩ | ⟨-, hd⟩ |
      ⟨-, hd⟩ | ⟨-, hd⟩ | ⟨-, hd⟩ | ⟨-, hd⟩ | ⟨-, hd⟩ | ⟨-, hd⟩ <;> rw [hd] at h <;> cases h <;> simp [Instr.operands]
  · obtain ⟨op, a, b⟩ := w
    rintro ⟨rfl, hoperands⟩
    cases i with
    | hlt | ret => rfl
    | prn | push | pop | call | jmp | jeq | jne =>
      obtain rfl := by simpa [Instr.operands] using hoperands
      rfl
    | ldi | add | mul | cmp =>
      obtain ⟨rfl, rfl⟩ := by simpa [Instr.operands] using hoperands
      rfl

theorem encode_length (i : Instr) : (encode i).length = i.length := by cases i <;> rfl

theorem length_bounds (i : Instr) : 1 ≤ i.length ∧ i.length ≤ 3 := by cases i <;> simp [Instr.length]

/-- The window at the head of a byte sequence begins with the sequence's first three bytes. -/
theorem take_three_prefix_ofBytes (bytes : List Byte) :
    bytes.take 3 <+: [(Window.ofBytes bytes).op, (Window.ofBytes bytes).a, (Window.ofBytes bytes).b] := by
  rcases bytes with - | ⟨_, - | ⟨_, - | _⟩⟩ <;> simp [Window.ofBytes]

/-- Settles O2: both directions are `decode_eq_ok_iff`, an instruction having at most the window's three bytes. -/
theorem decodeAndEncodeAgree : Obligations.DecodeAndEncodeAgree := by
  constructor
  · intro i rest
    have hlength : (encode i).length ≤ 3 := encode_length i ▸ (length_bounds i).2
    have htake : encode i <+: (encode i ++ rest).take 3 := List.prefix_take_iff.mpr ⟨List.prefix_append _ _, hlength⟩
    exact (decode_eq_ok_iff _ i).mpr (htake.trans (take_three_prefix_ofBytes _))
  · intro w i h
    have hprefix := List.prefix_iff_eq_take.mp ((decode_eq_ok_iff w i).mp h)
    rw [encode_length] at hprefix
    exact ⟨hprefix, length_bounds i⟩

/-- Settles O1: in each row, the instruction's bytes are the head of the window. -/
theorem decodeReadsOpcodeTable : Obligations.DecodeReadsOpcodeTable := by
  intro a b
  simp [decode_eq_ok_iff, encode, Instr.opcode, Instr.operands]

/-- The decoder's two answers, told apart by the opcode byte alone (30_encoding.md R62, R68). -/
theorem decode_ok_or_unknown (w : Window) :
    (w.op ∈ knownOpcodes ∧ ∃ i, decode w = .ok i) ∨
    (w.op ∉ knownOpcodes ∧ decode w = .error (.unknownOpcode w.op)) := by
  rcases decode_cases w with ⟨ho, hd⟩ | ⟨ho, hd⟩ | ⟨ho, hd⟩ | ⟨ho, hd⟩ | ⟨ho, hd⟩ | ⟨ho, hd⟩ | ⟨ho, hd⟩ | ⟨ho, hd⟩ |
    ⟨ho, hd⟩ | ⟨ho, hd⟩ | ⟨ho, hd⟩ | ⟨ho, hd⟩ | ⟨ho, hd⟩ | hunknown
  on_goal 14 => exact .inr hunknown
  all_goals exact .inl ⟨by simp [ho, knownOpcodes], _, hd⟩

/-- Settles O3: `decode_ok_or_unknown`; the statement's list is `knownOpcodes` written out. -/
theorem decodeRefusesExactlyUnknownOpcodes : Obligations.DecodeRefusesExactlyUnknownOpcodes := by
  intro w
  rcases decode_ok_or_unknown w with ⟨hknown, i, hd⟩ | ⟨hunknown, hd⟩
  · simp only [hd, reduceCtorEq, exists_false, false_implies, and_true, false_iff, not_not]
    exact hknown
  · exact ⟨iff_of_true hd hunknown, fun _ => hd⟩

/-- Settles O4: the instruction's bytes are the head of the part of the window that stays. -/
theorem unusedWindowBytesAreIgnored : Obligations.UnusedWindowBytesAreIgnored := by
  intro w i a' b' h
  rw [decode_eq_ok_iff] at h
  rw [← encode_length, decode_eq_ok_iff, decode_eq_ok_iff]
  constructor
  · intro hlength
    have hprefix : encode i <+: [w.op, w.a] := List.prefix_take_iff.mpr ⟨h, hlength⟩
    exact hprefix.trans (List.prefix_append [w.op, w.a] [b'])
  · intro hlength
    have hprefix : encode i <+: [w.op] := List.prefix_take_iff.mpr ⟨h, hlength⟩
    exact hprefix.trans (List.prefix_append [w.op] [a', b'])

/-- The field that `firstIllegalField` reports is illegal. -/
theorem legalField_of_firstIllegalField {i : Instr} {f : OperandField} {v : Byte}
    (h : i.firstIllegalField = some (f, v)) : legalField v = false := by
  cases i with
  | hlt | ret => cases h
  | ldi | prn | push | pop | call | jmp | jeq | jne =>
    obtain ⟨hra, -, rfl⟩ := by simpa [Instr.firstIllegalField] using h
    exact hra
  | add ra | mul ra | cmp ra =>
    cases ha : legalField ra with
    | false =>
      obtain ⟨-, rfl⟩ := by simpa [Instr.firstIllegalField, ha] using h
      exact ha
    | true =>
      obtain ⟨hrb, -, rfl⟩ := by simpa [Instr.firstIllegalField, ha] using h
      exact hrb

end Sys2Proof

namespace Sys2Proof.Machine

/-- Memory that holds the bytes of `i` from `pc` upward is fetched as a window that decodes to `i`. -/
theorem decode_fetch_of_encode {s : State} {i : Instr}
    (h : ∀ (k : Nat) (hk : k < (encode i).length), s.readMem (s.pc + BitVec.ofNat 8 k) = (encode i)[k]) :
    decode s.fetch = .ok i := by
  have hlength : (encode i).length ≤ 3 := encode_length i ▸ (length_bounds i).2
  rw [decode_eq_ok_iff, State.fetch_op, State.fetch_a, State.fetch_b]
  refine List.prefix_iff_getElem.mpr ⟨hlength, fun k hk => ?_⟩
  rw [← h k hk]
  match k with
  | 0 => simp
  | 1 | 2 => rfl
  | k + 3 => omega

/-- Settles O6: the step runs what the fetched window decodes to. -/
theorem encodedInstructionAtPcIsRun : Obligations.EncodedInstructionAtPcIsRun :=
  fun _ _ hrun h => step_of_decode hrun (decode_fetch_of_encode h)

/-- Settles O14: PRN reads back the register that LDI has written. -/
theorem ldiThenPrnOutputsImmediate : Obligations.LdiThenPrnOutputsImmediate :=
  fun _ _ _ h => ⟨_, _, execLdi_legal h, execPrn_legal h, by simp⟩

/-- Whatever the instruction, its first illegal field decides its whole effect (60_exceptions.md R153, R158). -/
theorem exec_of_firstIllegalField {i : Instr} {s : State} {f : OperandField} {v : Byte}
    (h : i.firstIllegalField = some (f, v)) :
    exec i s = .next (s.setRun (.faulted (.illegalRegisterIndex f v i.opcode s.pc))) := by
  obtain ⟨t, ht⟩ := exec_next i s
  rcases exec_cases ht with ⟨f', v', hillegal, rfl⟩ | ⟨hnone, -⟩
  · obtain ⟨rfl, rfl⟩ : f = f' ∧ v = v' := by simpa using h.symm.trans hillegal
    exact ht
  · cases h.symm.trans hnone

/-- Settles O34: `exec_of_firstIllegalField`, and the field it names is illegal. -/
theorem illegalRegisterFieldFaults : Obligations.IllegalRegisterFieldFaults := by
  intro i s
  refine ⟨fun f v h => ⟨exec_of_firstIllegalField h, ?_⟩, firstIllegalField_eq_none_iff i⟩
  simpa [legalField] using legalField_of_firstIllegalField h

/-! ## Unknown opcodes (60_exceptions.md R151, R152) -/

theorem step_unknown {s : State} (hrun : s.run = .running) (hop : s.readMem s.pc ∉ knownOpcodes) :
    step s = unknownOpcodeStep (s.readMem s.pc) s := by
  rcases decode_ok_or_unknown s.fetch with ⟨hknown, -⟩ | ⟨-, hd⟩
  · exact absurd hknown hop
  · simp only [step, hrun, hd, State.fetch_op]

/-- Settles O35: `unknownOpcodeStep` under the policy `fault`. -/
theorem unknownOpcodeFaults : Obligations.UnknownOpcodeFaults :=
  fun _ hrun hp hop => (step_unknown hrun hop).trans (unknownOpcodeStep_fault hp)

/-- Settles O36, by induction on `k`: a step leaves the machine Running before the same byte. -/
theorem unknownOpcodeSpinsForever : Obligations.UnknownOpcodeSpinsForever := by
  intro s k hrun hp hop
  induction k generalizing s with
  | zero => simp
  | succ k ih =>
    have hstep := (step_unknown hrun hop).trans (unknownOpcodeStep_spin hp)
    rw [runSteps_succ hstep, ih (s.diagnose ⟨s.readMem s.pc, s.pc⟩) hrun hp hop]
    simp [State.diagnose, State.readMem, List.replicate_succ]

theorem runSteps_stopped {s : State} (h : s.run ≠ .running) (k : Nat) : runSteps k s = .next s := by
  induction k with
  | zero => rfl
  | succ k ih => rw [runSteps_succ (step_stopped h), ih]

/-- The run state in which an unknown opcode `op` at `pc` leaves a Running machine, by policy. -/
def unknownOpcodeRun (p : UnknownOpcodePolicy) (op pc : Byte) : RunState :=
  match p with
  | .fault => .faulted (.illegalOpcode op pc)
  | .spin => .running

/-- A Running machine before an unknown opcode stays there: its first step sets the run state for good. -/
theorem runSteps_unknown {s : State} (hrun : s.run = .running) (hop : s.readMem s.pc ∉ knownOpcodes) (k : Nat) :
    ∃ d, runSteps (k + 1) s =
      .next { s with run := unknownOpcodeRun s.policy (s.readMem s.pc) s.pc, diagnostics := d } := by
  cases hp : s.policy with
  | fault =>
    rw [runSteps_succ (unknownOpcodeFaults s hrun hp hop), runSteps_stopped (by simp)]
    exact ⟨s.diagnostics, by simp [unknownOpcodeRun, hp]⟩
  | spin =>
    rw [unknownOpcodeSpinsForever s (k + 1) hrun hp hop]
    exact ⟨s.diagnostics ++ List.replicate (k + 1) ⟨s.readMem s.pc, s.pc⟩, by simp [unknownOpcodeRun, hp, hrun]⟩

/-! ## The two policies (decision D4) -/

/-- `s` under the policy `p`. -/
def State.withPolicy (s : State) (p : UnknownOpcodePolicy) : State := { s with policy := p }

/-- Two answers are next states that differ at most in the policy, which is `p` in the second. -/
def AgreeUpToPolicy (p : UnknownOpcodePolicy) (x y : Result) : Prop := ∃ t, x = .next t ∧ y = .next (t.withPolicy p)

@[simp] theorem State.withPolicy_run (s : State) (p : UnknownOpcodePolicy) : (s.withPolicy p).run = s.run := rfl

@[simp] theorem State.withPolicy_reg (s : State) (p : UnknownOpcodePolicy) (r : RegIdx) :
    (s.withPolicy p).reg r = s.reg r := rfl

theorem State.withPolicy_branch (s : State) (p : UnknownOpcodePolicy) (taken : Bool) (target : Byte) :
    (s.withPolicy p).branch taken target = (s.branch taken target).withPolicy p := by
  cases taken <;> rfl

theorem agreeUpToPolicy_withRegField {field : OperandField} {opcode value : Byte} (s : State)
    (p : UnknownOpcodePolicy) {k k' : RegIdx → Result} (h : ∀ r, AgreeUpToPolicy p (k r) (k' r)) :
    AgreeUpToPolicy p (withRegField field opcode value s k) (withRegField field opcode value (s.withPolicy p) k') := by
  by_cases hv : value.toNat < 8
  · rw [withRegField_legal hv, withRegField_legal hv]
    exact h _
  · rw [withRegField_illegal hv, withRegField_illegal hv]
    exact ⟨_, rfl, rfl⟩

theorem agreeUpToPolicy_aluInstr (tag ra rb : Byte) (s : State) (p : UnknownOpcodePolicy) :
    AgreeUpToPolicy p (aluInstr tag ra rb s) (aluInstr tag ra rb (s.withPolicy p)) := by
  unfold aluInstr withRegAB
  refine agreeUpToPolicy_withRegField s p fun a => agreeUpToPolicy_withRegField s p fun b => ?_
  simp only [State.withPolicy_reg]
  cases alu tag (s.reg a) (s.reg b) with
  | value | flags | unsupported => exact ⟨_, rfl, rfl⟩

/-- No instruction reads the policy. -/
theorem agreeUpToPolicy_exec (i : Instr) (s : State) (p : UnknownOpcodePolicy) :
    AgreeUpToPolicy p (exec i s) (exec i (s.withPolicy p)) := by
  cases i with
  | hlt | ret => exact ⟨_, rfl, rfl⟩
  | add | mul | cmp => exact agreeUpToPolicy_aluInstr _ _ _ s p
  | ldi | prn | push | pop | call | jmp =>
    simp only [exec, execLdi, execPrn, execPush, execPop, execCall, execJmp, withRegA]
    exact agreeUpToPolicy_withRegField s p fun _ => ⟨_, rfl, rfl⟩
  | jeq | jne =>
    simp only [exec, execJeq, execJne, withRegA, State.withPolicy_branch]
    exact agreeUpToPolicy_withRegField s p fun _ => ⟨_, rfl, rfl⟩

/-- The two-run invariant: the states differ in the policy only, or both runs, one under `q` and one under `p`, have met
the same unknown opcode and stay before it. -/
inductive PolicyPair : State → State → Prop where
  | together (t : State) (p : UnknownOpcodePolicy) : PolicyPair t (t.withPolicy p)
  | atUnknown (s : State) (q p : UnknownOpcodePolicy) (d d' : List Diagnostic) (hop : s.readMem s.pc ∉ knownOpcodes) :
    PolicyPair { s with run := unknownOpcodeRun q (s.readMem s.pc) s.pc, diagnostics := d, policy := q }
      { s with run := unknownOpcodeRun p (s.readMem s.pc) s.pc, diagnostics := d', policy := p }

theorem policyPair_runSteps (k : Nat) (s : State) (p : UnknownOpcodePolicy) :
    ∃ t u, runSteps k s = .next t ∧ runSteps k (s.withPolicy p) = .next u ∧ PolicyPair t u := by
  induction k generalizing s with
  | zero => exact ⟨_, _, rfl, rfl, .together s p⟩
  | succ k ih =>
    have hrun' := s.withPolicy_run p
    by_cases hrun : s.run = .running
    · rcases decode_ok_or_unknown s.fetch with ⟨-, i, hd⟩ | ⟨hop, -⟩
      · obtain ⟨t, ht, ht'⟩ := agreeUpToPolicy_exec i s p
        rw [runSteps_succ ((step_of_decode hrun hd).trans ht),
          runSteps_succ ((step_of_decode (hrun'.trans hrun) hd).trans ht')]
        exact ih t
      · obtain ⟨d, hs⟩ := runSteps_unknown hrun hop k
        obtain ⟨d', hs'⟩ := runSteps_unknown (hrun'.trans hrun) hop k
        exact ⟨_, _, hs, hs', .atUnknown s s.policy p d d' hop⟩
    · exact ⟨_, _, runSteps_stopped hrun _, runSteps_stopped (hrun' ▸ hrun) _, .together s p⟩

/-- Settles O55: the two runs end in a `PolicyPair`, and at an unknown opcode each policy's run state is known. -/
theorem policiesDifferOnlyInFaultingOrSpinning : Obligations.PoliciesDifferOnlyInFaultingOrSpinning := by
  intro k s p
  obtain ⟨t, u, ht, hu, hpair⟩ := policyPair_runSteps k s p
  refine ⟨t, u, ht, hu, ?_⟩
  cases hpair with
  | together => exact ⟨rfl, rfl, rfl, rfl, rfl, rfl, .inl rfl⟩
  | atUnknown s q p d d' hop =>
    refine ⟨rfl, rfl, rfl, rfl, rfl, ?_⟩
    match q, p with
    | .fault, .fault | .spin, .spin => exact ⟨rfl, .inl rfl⟩
    | .fault, .spin => exact ⟨rfl, .inr ⟨hop, .inl ⟨rfl, rfl, rfl, rfl⟩⟩⟩
    | .spin, .fault => exact ⟨rfl, .inr ⟨hop, .inr ⟨rfl, rfl, rfl, rfl⟩⟩⟩

end Sys2Proof.Machine

namespace Sys2Proof.Machine

/-! ## The run state's record (60_exceptions.md R150, R154, R159) -/

theorem State.inv_iff (s : State) :
    s.inv = true ↔
      Memory.wf s.mem = true ∧ s.runRecordTrue = true ∧ ∀ d ∈ s.diagnostics, d.opcode ∉ knownOpcodes := by
  simp [State.inv, and_assoc]

theorem runRecordTrue_of_running {s : State} (h : s.run = .running) : s.runRecordTrue = true := by
  simp only [State.runRecordTrue, h]

theorem runRecordTrue_of_halted {s : State} (h : s.run = .halted) (hop : s.readMem (s.pc - 1#8) = 0x01#8) :
    s.runRecordTrue = true := by
  simp only [State.runRecordTrue, h, hop, decide_true]

theorem runRecordTrue_illegalOpcode {s : State} (hop : s.fetch.op ∉ knownOpcodes) :
    (s.setRun (.faulted (.illegalOpcode s.fetch.op s.pc))).runRecordTrue = true := by
  rw [State.fetch_op] at hop ⊢
  simp [State.runRecordTrue, hop]

theorem runRecordTrue_illegalRegisterIndex {s : State} {i : Instr} {f : OperandField} {v : Byte}
    (hd : decode s.fetch = .ok i) (hillegal : i.firstIllegalField = some (f, v)) :
    (s.setRun (.faulted (.illegalRegisterIndex f v i.opcode s.pc))).runRecordTrue = true := by
  simp [State.runRecordTrue, hd, hillegal]

/-! ## What the run state can become (10_state.md R21) -/

/-- An instruction leaves the run state alone, unless it is HLT or its fields are illegal. -/
theorem exec_run {i : Instr} {s t : State} (h : exec i s = .next t) :
    t.run = s.run ∨ (i = .hlt ∧ t = (s.setRun .halted).setPc (s.pc + 1#8)) ∨ FieldFault i s t := by
  cases execEffect_of_exec h with
  | fault hillegal => exact .inr (.inr ⟨_, _, hillegal, rfl⟩)
  | hlt => exact .inr (.inl ⟨rfl, rfl⟩)
  | _ => exact .inl rfl

/-- The three ends of a Running machine's step: Running, HLT's next state, or a fault with a true record. -/
theorem step_running_cases {s t : State} (hrun : s.run = .running) (h : step s = .next t) :
    t.run = .running ∨
    (s.fetch.op = 0x01#8 ∧ t = (s.setRun .halted).setPc (s.pc + 1#8)) ∨
    ∃ c, t = s.setRun (.faulted c) ∧ t.runRecordTrue = true := by
  rcases step_cases h with ⟨hstopped, -⟩ | ⟨-, i, hd, hexec⟩ | ⟨-, hop, -, hunknown⟩
  · exact absurd hrun hstopped
  · rcases exec_run hexec with hsame | ⟨rfl, rfl⟩ | ⟨f, v, hillegal, rfl⟩
    · exact .inl (hsame.trans hrun)
    · exact .inr (.inl ⟨(opcode_of_decode hd).symm, rfl⟩)
    · exact .inr (.inr ⟨_, rfl, runRecordTrue_illegalRegisterIndex hd hillegal⟩)
  · rcases unknownOpcodeStep_cases hunknown with ⟨-, rfl⟩ | ⟨-, rfl⟩
    · exact .inr (.inr ⟨_, rfl, runRecordTrue_illegalOpcode hop⟩)
    · exact .inl hrun

/-! ## The three parts of the invariant, kept by a step -/

theorem BusEvent.wf_apply {m : Memory} (h : Memory.wf m = true) (e : BusEvent) : Memory.wf (e.apply m) = true := by
  cases e with
  | read => exact h
  | write a v => exact Memory.wf_write h a v

/-- Memory stays canonical, since a step changes it by its transactions only. -/
theorem step_keeps_wf {s t : State} (hwf : Memory.wf s.mem = true) (h : step s = .next t) : Memory.wf t.mem = true := by
  rw [step_mem h]
  exact List.foldlRecOn (motive := fun m => Memory.wf m = true) s.busEvents BusEvent.apply hwf
    fun _ hm e _ => BusEvent.wf_apply hm e

/-- HLT's own byte stands just before the `pc` it leaves, a fault carries its record, and a stopped machine stays. -/
theorem step_keeps_runRecordTrue {s t : State} (hrec : s.runRecordTrue = true) (h : step s = .next t) :
    t.runRecordTrue = true := by
  by_cases hrun : s.run = .running
  · rcases step_running_cases hrun h with ht | ⟨hop, rfl⟩ | ⟨_, -, ht⟩
    · exact runRecordTrue_of_running ht
    · exact runRecordTrue_of_halted rfl (by simpa [State.fetch_op] using hop)
    · exact ht
  · cases (step_stopped hrun).symm.trans h
    exact hrec

theorem step_keeps_unknown_diagnostics {s t : State} (hdiag : ∀ d ∈ s.diagnostics, d.opcode ∉ knownOpcodes)
    (h : step s = .next t) : ∀ d ∈ t.diagnostics, d.opcode ∉ knownOpcodes := by
  obtain ⟨-, hsame | ⟨-, -, hop, rfl⟩⟩ := diagnosticsOnlyUnderSpin s t h
  · rwa [hsame]
  · simpa [or_imp, forall_and] using ⟨hdiag, hop⟩

/-- Settles O52: each of the invariant's three parts is kept by a step on its own. -/
theorem everyStepKeepsInvariant : Obligations.EveryStepKeepsInvariant := by
  intro s t hinv h
  rw [State.inv_iff] at hinv ⊢
  obtain ⟨hwf, hrec, hdiag⟩ := hinv
  exact ⟨step_keeps_wf hwf h, step_keeps_runRecordTrue hrec h, step_keeps_unknown_diagnostics hdiag h⟩

/-- Settles O37: of the three ends of a Running machine's step, only the fault is Faulted, and it is `setRun`. -/
theorem faultEntryIsPrecise : Obligations.FaultEntryIsPrecise := by
  intro s t c hrun h hfault
  rcases step_running_cases hrun h with ht | ⟨-, rfl⟩ | ⟨c', rfl, -⟩
  · cases ht.symm.trans hfault
  · cases hfault
  · obtain rfl : c' = c := by simpa using hfault
    rfl

/-! ## Every step answers (40_fetch_decode_execute.md R80, R81, R88) -/

theorem State.fetch_eq (s : State) :
    s.fetch = ⟨s.readMem s.pc, s.readMem (s.pc + 1#8), s.readMem (s.pc + 2#8)⟩ := by
  rw [← State.fetch_op, ← State.fetch_a, ← State.fetch_b]

theorem unknownOpcodeStep_next (op : Byte) (s : State) : ∃ t, unknownOpcodeStep op s = .next t := by
  cases hp : s.policy with
  | fault => exact ⟨_, unknownOpcodeStep_fault hp⟩
  | spin => exact ⟨_, unknownOpcodeStep_spin hp⟩

/-- Every step answers a next state, stopped or Running, whatever the fetched byte (60_exceptions.md R156). -/
theorem step_next (s : State) : ∃ t, step s = .next t := by
  by_cases hrun : s.run = .running
  · rcases decode_ok_or_unknown s.fetch with ⟨-, i, hd⟩ | ⟨hop, -⟩
    · rw [step_of_decode hrun hd]
      exact exec_next i s
    · rw [step_unknown hrun hop]
      exact unknownOpcodeStep_next _ s
  · exact ⟨s, step_stopped hrun⟩

/-- Settles O8: `step_next` for steps, `exec_next` for instructions. -/
theorem everyStepAnswersNext : Obligations.EveryStepAnswersNext := ⟨step_next, exec_next⟩

/-- Settles O9: `runSteps_stopped`, an induction on `k`. -/
theorem stoppedMachineNeverChanges : Obligations.StoppedMachineNeverChanges := fun _ k h => runSteps_stopped h k

/-- Settles O5: the three bytes of the statement are the fetched window. -/
theorem stepRunsDecodedInstruction : Obligations.StepRunsDecodedInstruction := by
  intro s i hrun hd
  rw [← State.fetch_eq] at hd
  exact step_of_decode hrun hd

end Sys2Proof.Machine

namespace Sys2Proof

/-- In every instruction that has operands, byte a is a register field and is checked first (60_exceptions.md R158). -/
theorem firstIllegalField_of_head_operands {i : Instr} {ra : Byte} (ha : i.operands.head? = some ra)
    (hillegal : 8 ≤ ra.toNat) : i.firstIllegalField = some (.a, ra) := by
  have hfield : legalField ra = false := by simp [legalField, hillegal]
  cases i with
  | hlt | ret => cases ha
  | ldi | prn | add | mul | push | pop | call | cmp | jmp | jeq | jne =>
    cases ha
    simp [Instr.firstIllegalField, hfield]

end Sys2Proof

namespace Sys2Proof.Machine

/-! ## Machine control and data movement (41_machine_control_and_data.md R100 to R102) -/

/-- An illegal byte a is the whole effect of an instruction that has operands (60_exceptions.md R153). -/
theorem exec_of_illegal_a {i : Instr} {ra : Byte} (s : State) (ha : i.operands.head? = some ra)
    (hillegal : 8 ≤ ra.toNat) :
    exec i s = .next { s with run := .faulted (.illegalRegisterIndex .a ra i.opcode s.pc) } :=
  exec_of_firstIllegalField (firstIllegalField_of_head_operands ha hillegal)

/-- Settles O11: only HLT ends a step in Halted (`haltedReachedOnlyByHlt`), and a stopped machine answers itself. -/
theorem hltHaltsAndAdvancesByOne : Obligations.HltHaltsAndAdvancesByOne := by
  refine ⟨rfl, fun a b => (decode_eq_ok_iff _ _).mpr ⟨[a, b], rfl⟩, fun s t hrun h hhalted => ?_, fun s => ?_⟩
  · have hended : t.endedNormally = true := by simp [State.endedNormally, hhalted]
    exact (haltedReachedOnlyByHlt s t hrun h).mp hended
  · have hstopped : ((s.setRun .halted).setPc (s.pc + 1#8)).run ≠ .running := by simp
    exact ⟨_, execHlt_eq s, rfl, rfl, fun _ => rfl, rfl, fun _ => rfl, rfl, rfl, rfl, runSteps_stopped hstopped⟩

/-- Settles O12: a legal field gives one register write and one `pc` write, an illegal one the field fault. -/
theorem ldiLoadsImmediate : Obligations.LdiLoadsImmediate := by
  intro ra imm s
  refine ⟨rfl, fun hlegal => ?_, exec_of_illegal_a s rfl⟩
  exact ⟨_, execLdi_legal hlegal, fun r => State.setReg_reg s _ r imm, rfl, rfl, rfl, fun _ => rfl, rfl, rfl, rfl⟩

/-- Settles O13: a legal field gives one output and one `pc` write, an illegal one the field fault. -/
theorem prnAppendsRegisterToOutput : Obligations.PrnAppendsRegisterToOutput := by
  intro ra s
  refine ⟨rfl, fun hlegal => ?_, exec_of_illegal_a s rfl⟩
  exact ⟨_, execPrn_legal hlegal, rfl, rfl, fun _ => rfl, rfl, rfl, fun _ => rfl, rfl, rfl⟩

end Sys2Proof.Machine

namespace Sys2Proof.Machine

/-! ## The ALU as a function (42_alu.md R110, R112, R118) -/

/-- ADD's value is the library's sum of two bytes, so the library's laws of a ring apply to it. -/
theorem alu_add_eq_value_add (u v : Byte) : alu 0xA0#8 u v = .value (u + v) := by
  simp [alu_add, BitVec.ofNat_add]

/-- MUL's value is the library's product of two bytes. -/
theorem alu_mul_eq_value_mul (u v : Byte) : alu 0xA2#8 u v = .value (u * v) := by
  simp [alu_mul, BitVec.ofNat_mul]

theorem compareFlags_equal_iff (u v : Byte) : (compareFlags u v).equal = true ↔ u.toNat = v.toNat := decide_eq_true_iff

theorem compareFlags_less_iff (u v : Byte) : (compareFlags u v).less = true ↔ u.toNat < v.toNat := decide_eq_true_iff

theorem compareFlags_greater_iff (u v : Byte) : (compareFlags u v).greater = true ↔ u.toNat > v.toNat :=
  decide_eq_true_iff

theorem alu_unsupported {tag : Byte} (h : tag ∉ [0xA0#8, 0xA2#8, 0xA7#8]) (u v : Byte) :
    alu tag u v = .unsupported := by
  obtain ⟨hadd, hmul, hcmp⟩ : tag ≠ Opcode.add ∧ tag ≠ Opcode.mul ∧ tag ≠ Opcode.cmp := by simpa using h
  rw [alu, if_neg hadd, if_neg hmul, if_neg hcmp]

/-- Settles O15: one equation of the ALU per tag. -/
theorem aluIsModularArithmeticAndComparison : Obligations.AluIsModularArithmeticAndComparison := fun u v =>
  ⟨⟨u + v, alu_add_eq_value_add u v, BitVec.toNat_add u v⟩,
   ⟨u * v, alu_mul_eq_value_mul u v, BitVec.toNat_mul u v⟩,
   ⟨compareFlags u v, alu_cmp u v, compareFlags_equal_iff u v, compareFlags_less_iff u v, compareFlags_greater_iff u v⟩⟩

/-- Settles O16: ADD and MUL are the library's sum and product of bytes, and these are a commutative ring's. -/
theorem aluAlgebraicLaws : Obligations.AluAlgebraicLaws := by
  unfold Obligations.AluAlgebraicLaws
  simp only [alu_add_eq_value_add, alu_mul_eq_value_mul, AluResult.value.injEq]
  refine ⟨fun u v => ⟨add_comm u v, mul_comm u v⟩, ?_, ?_, ?_⟩
  · rintro u v w _ _ rfl rfl
    exact add_assoc u v w
  · rintro u v w _ _ rfl rfl
    exact mul_assoc u v w
  · rintro u v w _ _ _ rfl rfl rfl
    exact mul_add u v w

/-! ## The unreachable fault (60_exceptions.md R154) -/

/-- A fault record that is true of its machine names one of the two causes a step can raise. -/
theorem run_ne_unsupported_of_runRecordTrue {s : State} (h : s.runRecordTrue = true) :
    s.run ≠ .faulted .unsupportedALUOperation := by
  intro hrun
  simp [State.runRecordTrue, hrun] at h

/-- Settles O17: any other tag falls through the ALU's three tests; a step's fault carries a true record, which that of
the unreachable cause never is. -/
theorem unsupportedAluOperationIsUnreachable : Obligations.UnsupportedAluOperationIsUnreachable := by
  refine ⟨fun tag u v h => alu_unsupported h u v, fun tag ra rb s h ha hb => ?_, fun s t hne h => ?_⟩
  · rw [aluInstr_legal ha hb, alu_unsupported h]
    rfl
  · by_cases hrun : s.run = .running
    · rcases step_running_cases hrun h with ht | ⟨-, rfl⟩ | ⟨_, -, hrecord⟩
      · simp [ht]
      · simp
      · exact run_ne_unsupported_of_runRecordTrue hrecord
    · cases (step_stopped hrun).symm.trans h
      exact hne

/-! ## ADD, MUL and CMP (42_alu.md R114 to R116) -/

/-- Settles O18: legal fields give one register write and one `pc` write, an illegal one the field fault. -/
theorem addWrapsModulo256 : Obligations.AddWrapsModulo256 := by
  intro ra rb s
  refine ⟨rfl, fun ha hb => ?_, exec_of_illegal_a s rfl, fun ha hb => aluInstr_illegal_b ha hb.not_gt⟩
  exact ⟨_, execAdd_legal ha hb, by simp, fun r hr => State.setReg_reg_of_ne s _ r _ hr, rfl, rfl, rfl, fun _ => rfl,
    rfl, rfl, rfl⟩

/-- Settles O19: as ADD, with the product as the value. -/
theorem mulKeepsLowByteOfProduct : Obligations.MulKeepsLowByteOfProduct := by
  intro ra rb s
  refine ⟨rfl, fun ha hb => ?_, exec_of_illegal_a s rfl, fun ha hb => aluInstr_illegal_b ha hb.not_gt⟩
  exact ⟨_, execMul_legal ha hb, by simp, fun r hr => State.setReg_reg_of_ne s _ r _ hr, rfl, rfl, rfl, fun _ => rfl,
    rfl, rfl, rfl⟩

/-- Settles O20: legal fields give the comparison's flags and one `pc` write, an illegal one the field fault. -/
theorem cmpSetsAllThreeFlags : Obligations.CmpSetsAllThreeFlags := by
  intro ra rb s
  refine ⟨rfl, fun ha hb => ?_, exec_of_illegal_a s rfl, fun ha hb => aluInstr_illegal_b ha hb.not_gt⟩
  exact ⟨_, execCmp_legal ha hb, compareFlags_equal_iff _ _, compareFlags_less_iff _ _, compareFlags_greater_iff _ _,
    compareFlags_oneHot _ _, fun _ => rfl, rfl, rfl, fun _ => rfl, rfl, rfl, rfl⟩

/-- Settles O21: CMP leaves in Equal whether the registers are equal, and a jump not taken adds its 2 to CMP's 3. -/
theorem cmpThenConditionalJumps : Obligations.CmpThenConditionalJumps := by
  intro ra rb rt s ha hb ht
  have hpast : s.pc + 3#8 + 2#8 = s.pc + 5#8 := BitVec.add_assoc s.pc 3#8 2#8
  refine ⟨_, _, _, execCmp_legal ha hb, execJeq_legal ht, execJne_legal ht, fun heq => ?_, fun hne => ?_⟩
  · have hflag : (compareFlags (s.reg ⟨ra.toNat, ha⟩) (s.reg ⟨rb.toNat, hb⟩)).equal = true :=
      (compareFlags_equal_iff _ _).mpr (congrArg BitVec.toNat heq)
    simp [hflag, hpast]
  · have hflag : (compareFlags (s.reg ⟨ra.toNat, ha⟩) (s.reg ⟨rb.toNat, hb⟩)).equal = false :=
      Bool.eq_false_iff.mpr fun h => hne (BitVec.eq_of_toNat_eq ((compareFlags_equal_iff _ _).mp h))
    simp [hflag, hpast]

end Sys2Proof.Machine

namespace Sys2Proof.Machine

/-! ## PUSH and POP (43_stack.md R120, R121) -/

/-- Settles O22: a legal field gives SP's decrement, one store and one `pc` write, an illegal one the field fault. -/
theorem pushStoresBelowStackPointer : Obligations.PushStoresBelowStackPointer := by
  intro ra s
  refine ⟨rfl, State.pushAddr_eq s, fun hlegal => ?_, exec_of_illegal_a s rfl⟩
  rw [State.pushAddr_eq]
  exact ⟨_, execPush_legal hlegal, fun r => State.setReg_reg s 7 r _, fun x => State.writeMem_readMem _ _ _ x, rfl, rfl,
    rfl, rfl, rfl, rfl⟩

/-- Settles O23: a legal field gives the load's register write, the increment of SP as the load leaves it, and one `pc`
write; an illegal one the field fault. -/
theorem popLoadsAndRaisesStackPointer : Obligations.PopLoadsAndRaisesStackPointer := by
  intro ra s
  refine ⟨rfl, fun hlegal => ?_, exec_of_illegal_a s rfl⟩
  refine ⟨_, execPop_legal hlegal, fun hne r => ?_, fun h7 r => ?_, rfl, rfl, rfl, fun _ => rfl, rfl, rfl, rfl⟩
  · have hra : (7 : RegIdx) ≠ ⟨ra.toNat, hlegal⟩ := fun h => hne (congrArg Fin.val h).symm
    simp [hra]
  · have hra : (⟨ra.toNat, hlegal⟩ : RegIdx) = 7 := Fin.ext h7
    by_cases hr : r = 7 <;> simp [hra, hr]

/-! ## PUSH and POP of a register other than R7 (43_stack.md R122, R125) -/

theorem regIdx_ne_seven_of_lt {n : Nat} (h : n < 7) : (⟨n, Nat.lt_succ_of_lt h⟩ : RegIdx) ≠ 7 :=
  fun heq => Nat.ne_of_lt h (congrArg Fin.val heq)

/-- PUSH of a register other than R7 stores the register's value from before the instruction. -/
theorem exec_push_of_lt_seven {ra : Byte} (s : State) (h : ra.toNat < 7) :
    ∃ t, exec (.push ra) s = .next t ∧ t.reg 7 = s.reg 7 - 1#8 ∧ (∀ r, r ≠ 7 → t.reg r = s.reg r) ∧
      (∀ x, t.readMem x =
        if x = s.reg 7 - 1#8 then s.reg ⟨ra.toNat, Nat.lt_succ_of_lt h⟩ else s.readMem x) := by
  obtain ⟨-, haddr, hpush, -⟩ := pushStoresBelowStackPointer ra s
  obtain ⟨t, ht, hreg, hmem, -⟩ := hpush (Nat.lt_succ_of_lt h)
  have hother (r : RegIdx) (hr : r ≠ 7) : t.reg r = s.reg r := (hreg r).trans (if_neg hr)
  rw [haddr, hother _ (regIdx_ne_seven_of_lt h)] at hmem
  exact ⟨t, ht, hreg 7, hother, hmem⟩

/-- POP of a register other than R7 writes that register and SP only. -/
theorem exec_pop_of_lt_seven {ra : Byte} (s : State) (h : ra.toNat < 7) :
    ∃ t, exec (.pop ra) s = .next t ∧ t.reg 7 = s.reg 7 + 1#8 ∧
      t.reg ⟨ra.toNat, Nat.lt_succ_of_lt h⟩ = s.readMem (s.reg 7) ∧
      (∀ r : RegIdx, r ≠ 7 → r.val ≠ ra.toNat → t.reg r = s.reg r) ∧ (∀ x, t.readMem x = s.readMem x) := by
  obtain ⟨-, hpop, -⟩ := popLoadsAndRaisesStackPointer ra s
  obtain ⟨t, ht, hreg, -, -, -, -, hmem, -⟩ := hpop (Nat.lt_succ_of_lt h)
  replace hreg := hreg (Nat.ne_of_lt h)
  refine ⟨t, ht, hreg 7, ?_, fun r hr hra => ?_, hmem⟩
  · rw [hreg, if_neg (regIdx_ne_seven_of_lt h), if_pos rfl]
  · rw [hreg, if_neg hr, if_neg fun heq => hra (congrArg Fin.val heq)]

/-- Settles O24: POP loads from the address PUSH stored to, and its increment undoes PUSH's decrement. -/
theorem pushPopRoundTrip : Obligations.PushPopRoundTrip := by
  intro ra rb s ha hb
  obtain ⟨t, ht, hsp, hregs, hmem⟩ := exec_push_of_lt_seven s ha
  obtain ⟨u, hu, hsp', hrb, hregs', hmem'⟩ := exec_pop_of_lt_seven t hb
  refine ⟨t, u, ht, hu, ?_, fun r hr => ?_, fun x => ?_⟩
  · rw [hrb, hsp, hmem, if_pos rfl]
  · by_cases h7 : r = 7
    · rw [h7, hsp', hsp, BitVec.sub_add_cancel]
    · rw [hregs' r h7 hr, hregs r h7]
  · rw [hmem', hmem, State.pushAddr_eq]

/-- Settles O25: the second push and the first pop are a round trip (O24) inside the first push and the second pop. It
leaves SP at the first item, and stores one below it. -/
theorem stackIsLastInFirstOut : Obligations.StackIsLastInFirstOut := by
  intro ra rb rc rd s ha hb hc hd
  obtain ⟨s1, h1, hsp1, hregs1, hmem1⟩ := exec_push_of_lt_seven s ha
  obtain ⟨s2, s3, h2, h3, hrc3, hregs3, hmem3⟩ := pushPopRoundTrip rb rc s1 hb hc
  obtain ⟨s4, h4, hsp4, hrd4, hregs4, hmem4⟩ := exec_pop_of_lt_seven s3 hd
  have hsp3 : s3.reg 7 = s.reg 7 - 1#8 := (hregs3 7 (Nat.ne_of_gt hc)).trans hsp1
  have hslot : s1.pushAddr = s.reg 7 - 2#8 := by
    rw [State.pushAddr_eq, hsp1]
    bv_omega
  have hslots : s.reg 7 - 1#8 ≠ s.reg 7 - 2#8 := by bv_omega
  have hrc : s3.reg ⟨rc.toNat, Nat.lt_succ_of_lt hc⟩ = s.reg ⟨rb.toNat, Nat.lt_succ_of_lt hb⟩ :=
    hrc3.trans (hregs1 _ (regIdx_ne_seven_of_lt hb))
  refine ⟨s1, s2, s3, s4, h1, h2, h3, h4, hrc, fun hne => ?_, ?_, fun r hrc' hrd' => ?_, fun x => ?_⟩
  · have hval : rc.toNat ≠ rd.toNat := fun heq => hne (BitVec.eq_of_toNat_eq heq)
    exact (hregs4 _ (regIdx_ne_seven_of_lt hc) hval).trans hrc
  · rw [hrd4, hsp3, hmem3, hslot, if_neg hslots, hmem1, if_pos rfl]
  · by_cases h7 : r = 7
    · rw [h7, hsp4, hsp3, BitVec.sub_add_cancel]
    · rw [hregs4 r h7 hrd', hregs3 r hrc', hregs1 r h7]
  · rw [hmem4, hmem3, hslot, hregs1 _ (regIdx_ne_seven_of_lt hb), hmem1]

/-- Settles O30: RET takes its target from the address PUSH stored to, and its increment undoes PUSH's decrement. -/
theorem pushRetIsIndirectJump : Obligations.PushRetIsIndirectJump := by
  intro ra s h
  obtain ⟨t, ht, hsp, hregs, hmem⟩ := exec_push_of_lt_seven s h
  refine ⟨t, _, ht, execRet_eq t, ?_, fun r => ?_⟩
  · calc t.readMem (t.reg 7) = t.readMem (s.reg 7 - 1#8) := by rw [hsp]
      _ = s.reg ⟨ra.toNat, Nat.lt_succ_of_lt h⟩ := (hmem _).trans (if_pos rfl)
  · rw [State.setReg_reg, State.setPc_reg]
    split
    · next h7 => rw [h7, hsp, BitVec.sub_add_cancel]
    · next h7 => exact hregs r h7

/-! ## The three forms that name R7 (43_stack.md R124, 44_subroutine.md R131, decision D11) -/

/-- Settles O26: PUSH and POP are O22 and O23 at register 7, and CALL reads its target after the push. -/
theorem stackInstructionsNamingR7 : Obligations.StackInstructionsNamingR7 := by
  intro s
  have h7 : (0x07#8 : Byte).toNat < 8 := by decide
  obtain ⟨-, haddr, hpush, -⟩ := pushStoresBelowStackPointer 0x07#8 s
  obtain ⟨-, hpop, -⟩ := popLoadsAndRaisesStackPointer 0x07#8 s
  obtain ⟨t, ht, htreg, htmem, -⟩ := hpush h7
  obtain ⟨u, hu, -, hureg, -⟩ := hpop h7
  refine ⟨⟨t, ht, htreg 7, ?_⟩, ⟨u, hu, hureg rfl 7⟩, ⟨_, execCall_legal h7, ?_⟩⟩
  · rw [htmem, if_pos haddr.symm]
    exact htreg 7
  · simp

end Sys2Proof.Machine

namespace Sys2Proof.Machine

/-! ## Subroutines (44_subroutine.md R130 to R132) -/

/-- Settles O27: a legal field gives SP's decrement, one store and the jump, an illegal one the field fault. -/
theorem callPushesReturnAddressAndJumps : Obligations.CallPushesReturnAddressAndJumps := by
  intro ra s
  refine ⟨rfl, State.pushAddr_eq s, fun hlegal => ?_, exec_of_illegal_a s rfl⟩
  rw [State.pushAddr_eq]
  exact ⟨_, execCall_legal hlegal, fun r => State.setReg_reg s 7 r _, fun x => State.writeMem_readMem _ _ _ x, rfl, rfl,
    rfl, rfl, rfl, rfl⟩

/-- Settles O28: RET is one `pc` write and one increment of SP. -/
theorem retPopsProgramCounter : Obligations.RetPopsProgramCounter :=
  ⟨rfl, fun s => ⟨_, execRet_eq s, rfl, fun r => State.setReg_reg _ 7 r _, rfl, rfl, fun _ => rfl, rfl, rfl, rfl⟩⟩

/-- Settles O29: RET loads from the address CALL stored to (O27, O28), and its increment undoes CALL's decrement. -/
theorem callRetRoundTrip : Obligations.CallRetRoundTrip := by
  intro ra s hlegal
  obtain ⟨-, haddr, hcall, -⟩ := callPushesReturnAddressAndJumps ra s
  obtain ⟨t, ht, hreg, hmem, -, hflags, -⟩ := hcall hlegal
  obtain ⟨u, hu, hpc, hreg', hflags', -⟩ := retPopsProgramCounter.2 t
  have hsp : t.reg 7 = s.reg 7 - 1#8 := hreg 7
  refine ⟨t, u, ht, hu, ?_, fun r => ?_, hflags'.trans hflags⟩
  · calc u.pc = t.readMem s.pushAddr := by rw [hpc, hsp, haddr]
      _ = s.pc + 2#8 := (hmem _).trans (if_pos rfl)
  · by_cases h7 : r = 7
    · rw [hreg', if_pos h7, hsp, BitVec.sub_add_cancel, h7]
    · rw [hreg', if_neg h7, hreg, if_neg h7]

end Sys2Proof.Machine

namespace Sys2Proof.Machine

/-! ## Jumps (45_jumps.md R140 to R143) -/

/-- What a write of `pc` leaves unchanged: everything else, which is the frame of every jump. -/
theorem State.setPc_frame (s : State) (p : Byte) :
    (∀ r, (s.setPc p).reg r = s.reg r) ∧ (s.setPc p).flags = s.flags ∧ (s.setPc p).run = s.run ∧
      (∀ x, (s.setPc p).readMem x = s.readMem x) ∧ (s.setPc p).output = s.output ∧
      (s.setPc p).diagnostics = s.diagnostics ∧ (s.setPc p).policy = s.policy :=
  ⟨fun _ => rfl, rfl, rfl, fun _ => rfl, rfl, rfl, rfl⟩

/-- Settles O31: a legal field gives one write of `pc`, an illegal one the field fault. -/
theorem jmpSetsProgramCounter : Obligations.JmpSetsProgramCounter := by
  intro ra s
  refine ⟨rfl, fun hlegal => ?_, exec_of_illegal_a s rfl⟩
  exact ⟨_, execJmp_legal hlegal, State.setPc_pc s _, State.setPc_frame s _⟩

/-- Settles O32: a legal field gives one write of `pc`, whose value Equal selects; the field is checked first. -/
theorem jeqJumpsWhenEqual : Obligations.JeqJumpsWhenEqual := by
  intro ra s
  refine ⟨rfl, fun hlegal => ?_, exec_of_illegal_a s rfl⟩
  refine ⟨_, execJeq_legal hlegal, fun hequal => ?_, fun hequal => ?_, State.setPc_frame s _⟩
  · exact if_pos hequal
  · exact if_neg (Bool.eq_false_iff.mp hequal)

/-- Settles O33: as O32 with the two targets exchanged; Less and Greater do not select. -/
theorem jneJumpsWhenNotEqual : Obligations.JneJumpsWhenNotEqual := by
  intro ra s
  refine ⟨rfl, fun hlegal => ?_, exec_of_illegal_a s rfl⟩
  refine ⟨_, execJne_legal hlegal, fun hequal => ?_, fun hequal => ?_, State.setPc_frame s _⟩
  · exact if_neg (Bool.eq_false_iff.mp hequal)
  · exact if_pos hequal

end Sys2Proof.Machine

namespace Sys2Proof.Machine

/-! ## What makes a Running machine's step fault (60_exceptions.md R150, R156) -/

theorem State.goneWrong_iff (s : State) : s.goneWrong = true ↔ ∃ c, s.run = .faulted c := by
  cases hrun : s.run <;> simp [State.goneWrong, hrun]

/-- An instruction run by a Running machine faults exactly on an illegal register field (60_exceptions.md R153). -/
theorem exec_goneWrong_iff {i : Instr} {s t : State} (hrun : s.run = .running) (h : exec i s = .next t) :
    t.goneWrong = true ↔ i.wellFormed = false := by
  rw [State.goneWrong_iff, ← Bool.not_eq_true, ← firstIllegalField_eq_none_iff]
  cases hfield : i.firstIllegalField with
  | some p =>
    cases (exec_of_firstIllegalField hfield).symm.trans h
    simp
  | none =>
    rcases exec_run h with hsame | ⟨-, rfl⟩ | ⟨_, _, hillegal, -⟩
    · simp [hsame, hrun]
    · simp
    · cases hfield.symm.trans hillegal

/-- On an unknown opcode a Running machine faults exactly under the policy `fault` (60_exceptions.md R151, R152). -/
theorem unknownOpcodeStep_goneWrong_iff {op : Byte} {s t : State} (hrun : s.run = .running)
    (h : unknownOpcodeStep op s = .next t) : t.goneWrong = true ↔ s.policy = .fault := by
  rw [State.goneWrong_iff]
  rcases unknownOpcodeStep_cases h with ⟨hp, rfl⟩ | ⟨hp, rfl⟩
  · simp [hp]
  · simp [hp, hrun]

/-- Settles O38: a known opcode leaves the field fault as the only cause, an unknown one leaves the policy. -/
theorem stepFaultsExactlyWhen : Obligations.StepFaultsExactlyWhen := by
  intro s t hrun h
  rcases decode_ok_or_unknown s.fetch with ⟨hknown, i, hd⟩ | ⟨hop, hd⟩
  · rw [step_of_decode hrun hd] at h
    rw [exec_goneWrong_iff hrun h]
    simp [hknown, hd]
  · rw [step_unknown hrun hop] at h
    rw [unknownOpcodeStep_goneWrong_iff hrun h]
    simp [hop, hd]

end Sys2Proof.Machine

namespace Sys2Proof.Machine

/-! ## Reset from any state (70_reset_and_hazards.md R180) -/

/-- Settles O50: the registers are `applyReset`'s vector read by index, and the other fields are its own. -/
theorem resetEventFromAnyState : Obligations.ResetEventFromAnyState := fun v s =>
  ⟨rfl, rfl, State.applyReset_sp v s, rfl, State.applyReset_reg v s, rfl, fun _ => rfl, rfl, rfl⟩

end Sys2Proof.Machine

namespace Sys2Proof

/-- `decodeTableWord` answers the instructions that `decode` does on the word's window. -/
theorem decodeTableWord_eq_some_iff {nbits w : Nat} {i : Instr} :
    decodeTableWord nbits w = some i ↔ decode (Window.ofTableWord nbits w) = .ok i := by
  unfold decodeTableWord
  cases decode (Window.ofTableWord nbits w) <;> simp

end Sys2Proof

namespace Sys2Proof.Machine

/-! ## A stored window (40_fetch_decode_execute.md R82) -/

/-- Storing a window leaves every byte outside its three addresses as it was. -/
theorem State.storeWindow_readMem_of_ne (s : State) (w : Window) {x : Byte} (h0 : x ≠ s.pc) (h1 : x ≠ s.pc + 1#8)
    (h2 : x ≠ s.pc + 2#8) : (s.storeWindow w).readMem x = s.readMem x := by
  simp [State.storeWindow, addrPlus_eq, h0, h1, h2]

@[simp] theorem State.withFetchWord_fetch (s : State) (nbits w : Nat) :
    (s.withFetchWord nbits w).fetch = Window.ofTableWord nbits w :=
  State.storeWindow_fetch s _

/-- Settles O7: the stored window is the one fetched, so a word that decodes is run; the rest is the frame of three
memory writes and one write of `run`. -/
theorem storedWordIsTheOneFetched : Obligations.StoredWordIsTheOneFetched := by
  intro s nbits w
  refine ⟨State.withFetchWord_fetch s nbits w, fun i hi => ?_, rfl, fun _ => rfl, rfl, rfl, rfl,
    fun _ => State.storeWindow_readMem_of_ne s _⟩
  apply step_of_decode rfl
  rw [State.withFetchWord_fetch]
  exact decodeTableWord_eq_some_iff.mp hi

/-! ## The canonical form determines memory (log 1) -/

/-- Canonical memory lists its cells by strictly rising address. -/
theorem Memory.pairwise_of_wf {m : Memory} (h : Memory.wf m = true) :
    m.Pairwise (InvImage (· < ·) Prod.fst) := by
  induction m with
  | nil => exact .nil
  | cons c rest ih =>
    obtain ⟨-, -, hrising, hrest⟩ := (Memory.wf_cons ..).mp h
    exact .cons hrising (ih hrest)

/-- Canonical memory lists exactly the cells that it reads as and that do not hold the unlisted byte. -/
theorem Memory.mem_iff_lookup {m : Memory} (h : Memory.wf m = true) (c : Host.Cell) :
    c ∈ m ↔ c.1 < 256 ∧ c.2 ≠ Memory.unlisted ∧ Memory.lookup m c.1 = c.2 := by
  induction m with
  | nil => simp [Memory.lookup, eq_comm]
  | cons d rest ih =>
    obtain ⟨addr, v⟩ := c
    obtain ⟨key, u⟩ := d
    obtain ⟨hkey, hu, hrising, hrest⟩ := (Memory.wf_cons ..).mp h
    by_cases hk : addr = key
    · subst hk
      have hnot : (addr, v) ∉ rest := fun hmem => Nat.lt_irrefl addr (hrising _ hmem)
      simp only [List.mem_cons, Prod.mk.injEq, true_and, hnot, or_false, Memory.lookup, if_true, hkey]
      exact ⟨fun hv => ⟨hv ▸ hu, hv.symm⟩, fun hv => hv.2.symm⟩
    · simp [Memory.lookup, hk, Ne.symm hk, ih hrest]

/-- Settles O46: both memories list the same cells, and a list that rises strictly is fixed by its members. -/
theorem canonicalMemoryIsUnique : Obligations.CanonicalMemoryIsUnique := by
  intro m n hm hn hread
  refine (Memory.pairwise_of_wf hm).eq_of_mem_iff (Memory.pairwise_of_wf hn) fun c => ?_
  rw [Memory.mem_iff_lookup hm, Memory.mem_iff_lookup hn]
  refine and_congr_right fun hlt => ?_
  have hbyte : (BitVec.ofNat 8 c.1).toNat = c.1 := Nat.mod_eq_of_lt hlt
  have hlookup : Memory.lookup m c.1 = Memory.lookup n c.1 := hbyte ▸ hread (BitVec.ofNat 8 c.1)
  rw [hlookup]

end Sys2Proof.Machine
